-- ==== Sys2Proof/Word.lean ====
section
/-! DEFINITION. The word types of CORE (spec/00_scope.md R4, R7 to R9): every quantity is unsigned. -/

namespace Sys2Proof

/-- A general register, a timer or a byte of memory (10_state.md R20, R28, R29, R34). -/
abbrev Byte := BitVec 8

/-- A 12-bit address: I, PC and a stack entry (00_scope.md R4, ADDR_BITS). -/
abbrev Addr := BitVec 12

/-- An instruction word (30_encoding.md R70). -/
abbrev Word := BitVec 16

/-- The index of a general register or of a key, 0 to 15 (00_scope.md R4, NREGS, NKEYS). -/
abbrev Reg := Fin 16

/-- The index of VF, the flag register (10_state.md R23). -/
abbrev vf : Reg := 15

end Sys2Proof
end

