-- ==== Sys2Proof/Syntax.lean ====
section
/-! DEFINITION. The 35 instructions (spec/30_encoding.md R76), one constructor per row of spec/opcode_table.json and in its order, and the
six formats (R73, R74). -/

namespace Sys2Proof

/-- An instruction with its operands: `x`, `y` register indices, `nn` an 8-bit immediate, `nnn` a 12-bit address, `n` a number of sprite rows
(30_encoding.md R71, R75). The shifts keep the Y field they ignore (R84). -/
inductive Instr where
  | cls
  | ret
  | sys (nnn : Addr)
  | jp (nnn : Addr)
  | call (nnn : Addr)
  | seByte (x : Reg) (nn : Byte)
  | sneByte (x : Reg) (nn : Byte)
  | seReg (x y : Reg)
  | ldByte (x : Reg) (nn : Byte)
  | addByte (x : Reg) (nn : Byte)
  | ldReg (x y : Reg)
  | orReg (x y : Reg)
  | andReg (x y : Reg)
  | xorReg (x y : Reg)
  | addReg (x y : Reg)
  | sub (x y : Reg)
  | shr (x y : Reg)
  | subn (x y : Reg)
  | shl (x y : Reg)
  | sneReg (x y : Reg)
  | ldI (nnn : Addr)
  | jpV0 (nnn : Addr)
  | rnd (x : Reg) (nn : Byte)
  | drw (x y : Reg) (n : Fin 16)
  | skp (x : Reg)
  | sknp (x : Reg)
  | ldVxDt (x : Reg)
  | ldVxK (x : Reg)
  | ldDtVx (x : Reg)
  | ldStVx (x : Reg)
  | addI (x : Reg)
  | ldF (x : Reg)
  | ldB (x : Reg)
  | storeRegs (x : Reg)
  | loadRegs (x : Reg)
deriving DecidableEq, Repr

/-- The six formats of 30_encoding.md R73: fixed word, address, register and byte, two registers and minor opcode, `DRW`'s two registers
and N, one register and minor opcode. -/
inductive Format where
  | Z
  | A
  | I
  | R
  | D
  | U
deriving DecidableEq, Repr

/-- The format of each instruction (30_encoding.md R74). -/
def Instr.format : Instr → Format
  | .cls => .Z
  | .ret => .Z
  | .sys _ => .A
  | .jp _ => .A
  | .call _ => .A
  | .seByte _ _ => .I
  | .sneByte _ _ => .I
  | .seReg _ _ => .R
  | .ldByte _ _ => .I
  | .addByte _ _ => .I
  | .ldReg _ _ => .R
  | .orReg _ _ => .R
  | .andReg _ _ => .R
  | .xorReg _ _ => .R
  | .addReg _ _ => .R
  | .sub _ _ => .R
  | .shr _ _ => .R
  | .subn _ _ => .R
  | .shl _ _ => .R
  | .sneReg _ _ => .R
  | .ldI _ => .A
  | .jpV0 _ => .A
  | .rnd _ _ => .I
  | .drw _ _ _ => .D
  | .skp _ => .U
  | .sknp _ => .U
  | .ldVxDt _ => .U
  | .ldVxK _ => .U
  | .ldDtVx _ => .U
  | .ldStVx _ => .U
  | .addI _ => .U
  | .ldF _ => .U
  | .ldB _ => .U
  | .storeRegs _ => .U
  | .loadRegs _ => .U

end Sys2Proof
end

