-- ==== Sys2Proof/Decode.lean ====
section
/-! DEFINITION. Decoding and encoding (spec/30_encoding.md): the fields R71, the decoder R79 (total on every word and every byte list,
rejecting by name), the opcode table R76 as data, the encoder from that table, and `decodeTableWord`. The patterns of 30 of the 35 rows
are PRESUMED (R78, G1; log 10). -/

namespace Sys2Proof

/-- The six overlapping fields of a word (30_encoding.md R71). -/
structure Fields where
  type : Fin 16
  x : Reg
  y : Reg
  n : Fin 16
  nn : Byte
  nnn : Addr
deriving DecidableEq, Repr

/-- The four bits of `w` whose lowest has weight `weight`. -/
def nibble (w : Word) (weight : Nat) : Fin 16 :=
  ⟨w.toNat / weight % 16, Nat.mod_lt _ (by decide)⟩

/-- Field extraction, "Pure, total, no error cases" (30_encoding.md R71, R72). -/
def fields (w : Word) : Fields :=
  { type := nibble w 0x1000
    x := nibble w 0x100
    y := nibble w 0x10
    n := nibble w 1
    nn := w.setWidth 8
    nnn := w.setWidth 12 }

/-- Why a byte list holds no instruction: the illegal words by the group they fall in (30_encoding.md R80), and a list of fewer than two bytes. -/
inductive DecodeError where
  /-- 5XYN with N other than 0. -/
  | noMinor5
  /-- 8XYN with N in 8, 9, A, B, C, D, F. -/
  | noMinor8
  /-- 9XYN with N other than 0. -/
  | noMinor9
  /-- EXNN with NN neither 9E nor A1. -/
  | noMinorE
  /-- FXNN with NN none of the nine minor opcodes. -/
  | noMinorF
  /-- Fewer than two bytes: every instruction is two bytes long (30_encoding.md R70). -/
  | truncated
deriving DecidableEq, Repr

/-- The type-8 group of 30_encoding.md R79, selected by N. -/
def decode8 (f : Fields) : Except DecodeError Instr :=
  match f.n.val with
  | 0x0 => .ok (.ldReg f.x f.y)
  | 0x1 => .ok (.orReg f.x f.y)
  | 0x2 => .ok (.andReg f.x f.y)
  | 0x3 => .ok (.xorReg f.x f.y)
  | 0x4 => .ok (.addReg f.x f.y)
  | 0x5 => .ok (.sub f.x f.y)
  | 0x6 => .ok (.shr f.x f.y)
  | 0x7 => .ok (.subn f.x f.y)
  | 0xE => .ok (.shl f.x f.y)
  | _ => .error .noMinor8

/-- The type-E group of 30_encoding.md R79, selected by NN. -/
def decodeE (f : Fields) : Except DecodeError Instr :=
  match f.nn.toNat with
  | 0x9E => .ok (.skp f.x)
  | 0xA1 => .ok (.sknp f.x)
  | _ => .error .noMinorE

/-- The type-F group of 30_encoding.md R79, selected by NN. -/
def decodeF (f : Fields) : Except DecodeError Instr :=
  match f.nn.toNat with
  | 0x07 => .ok (.ldVxDt f.x)
  | 0x0A => .ok (.ldVxK f.x)
  | 0x15 => .ok (.ldDtVx f.x)
  | 0x18 => .ok (.ldStVx f.x)
  | 0x1E => .ok (.addI f.x)
  | 0x29 => .ok (.ldF f.x)
  | 0x33 => .ok (.ldB f.x)
  | 0x55 => .ok (.storeRegs f.x)
  | 0x65 => .ok (.loadRegs f.x)
  | _ => .error .noMinorF

/-- `decode_instr` of 30_encoding.md R79: a total function on all 65536 words, by exact match (D5; log 27). -/
def decodeWord (w : Word) : Except DecodeError Instr :=
  let f := fields w
  match f.type.val with
  | 0x0 => if w = 0x00E0#16 then .ok .cls else if w = 0x00EE#16 then .ok .ret else .ok (.sys f.nnn)
  | 0x1 => .ok (.jp f.nnn)
  | 0x2 => .ok (.call f.nnn)
  | 0x3 => .ok (.seByte f.x f.nn)
  | 0x4 => .ok (.sneByte f.x f.nn)
  | 0x5 => if f.n = 0 then .ok (.seReg f.x f.y) else .error .noMinor5
  | 0x6 => .ok (.ldByte f.x f.nn)
  | 0x7 => .ok (.addByte f.x f.nn)
  | 0x8 => decode8 f
  | 0x9 => if f.n = 0 then .ok (.sneReg f.x f.y) else .error .noMinor9
  | 0xA => .ok (.ldI f.nnn)
  | 0xB => .ok (.jpV0 f.nnn)
  | 0xC => .ok (.rnd f.x f.nn)
  | 0xD => .ok (.drw f.x f.y f.n)
  | 0xE => decodeE f
  | _ => decodeF f

/-- Two bytes as a word, the first the more significant (20_memory.md R54; 00_scope.md R10). -/
def wordOfBytes (hi lo : Byte) : Word := hi ++ lo

/-- The instruction at the head of a byte list and the bytes after it (30_encoding.md R70). -/
def decodeBytes : List Byte → Except DecodeError (Instr × List Byte)
  | hi :: lo :: rest =>
    match decodeWord (wordOfBytes hi lo) with
    | .ok i => .ok (i, rest)
    | .error e => .error e
  | [_] => .error .truncated
  | [] => .error .truncated

/-- A row of the opcode table: `w` encodes the row's instruction exactly when `w &&& mask = pattern` (30_encoding.md R76), `SYS` apart from
its two excluded words. -/
structure OpRow where
  mnemonic : String
  format : Format
  mask : Word
  pattern : Word
deriving DecidableEq, Repr

/-- The row of spec/opcode_table.json that each constructor stands for (30_encoding.md R76). -/
def Instr.row : Instr → OpRow
  | .cls => ⟨"CLS", .Z, 0xFFFF#16, 0x00E0#16⟩
  | .ret => ⟨"RET", .Z, 0xFFFF#16, 0x00EE#16⟩
  | .sys _ => ⟨"SYS_addr", .A, 0xF000#16, 0x0000#16⟩
  | .jp _ => ⟨"JP_addr", .A, 0xF000#16, 0x1000#16⟩
  | .call _ => ⟨"CALL_addr", .A, 0xF000#16, 0x2000#16⟩
  | .seByte _ _ => ⟨"SE_Vx__byte", .I, 0xF000#16, 0x3000#16⟩
  | .sneByte _ _ => ⟨"SNE_Vx__byte", .I, 0xF000#16, 0x4000#16⟩
  | .seReg _ _ => ⟨"SE_Vx__Vy", .R, 0xF00F#16, 0x5000#16⟩
  | .ldByte _ _ => ⟨"LD_Vx__byte", .I, 0xF000#16, 0x6000#16⟩
  | .addByte _ _ => ⟨"ADD_Vx__byte", .I, 0xF000#16, 0x7000#16⟩
  | .ldReg _ _ => ⟨"LD_Vx__Vy", .R, 0xF00F#16, 0x8000#16⟩
  | .orReg _ _ => ⟨"OR_Vx__Vy", .R, 0xF00F#16, 0x8001#16⟩
  | .andReg _ _ => ⟨"AND_Vx__Vy", .R, 0xF00F#16, 0x8002#16⟩
  | .xorReg _ _ => ⟨"XOR_Vx__Vy", .R, 0xF00F#16, 0x8003#16⟩
  | .addReg _ _ => ⟨"ADD_Vx__Vy", .R, 0xF00F#16, 0x8004#16⟩
  | .sub _ _ => ⟨"SUB_Vx__Vy", .R, 0xF00F#16, 0x8005#16⟩
  | .shr _ _ => ⟨"SHR_Vx", .R, 0xF00F#16, 0x8006#16⟩
  | .subn _ _ => ⟨"SUBN_Vx__Vy", .R, 0xF00F#16, 0x8007#16⟩
  | .shl _ _ => ⟨"SHL_Vx", .R, 0xF00F#16, 0x800E#16⟩
  | .sneReg _ _ => ⟨"SNE_Vx__Vy", .R, 0xF00F#16, 0x9000#16⟩
  | .ldI _ => ⟨"LD_I__addr", .A, 0xF000#16, 0xA000#16⟩
  | .jpV0 _ => ⟨"JP_V0__addr", .A, 0xF000#16, 0xB000#16⟩
  | .rnd _ _ => ⟨"RND_Vx__byte", .I, 0xF000#16, 0xC000#16⟩
  | .drw _ _ _ => ⟨"DRW_Vx__Vy__N", .D, 0xF000#16, 0xD000#16⟩
  | .skp _ => ⟨"SKP_Vx", .U, 0xF0FF#16, 0xE09E#16⟩
  | .sknp _ => ⟨"SKNP_Vx", .U, 0xF0FF#16, 0xE0A1#16⟩
  | .ldVxDt _ => ⟨"LD_Vx__DT", .U, 0xF0FF#16, 0xF007#16⟩
  | .ldVxK _ => ⟨"LD_Vx__K", .U, 0xF0FF#16, 0xF00A#16⟩
  | .ldDtVx _ => ⟨"LD_DT__Vx", .U, 0xF0FF#16, 0xF015#16⟩
  | .ldStVx _ => ⟨"LD_ST__Vx", .U, 0xF0FF#16, 0xF018#16⟩
  | .addI _ => ⟨"ADD_I__Vx", .U, 0xF0FF#16, 0xF01E#16⟩
  | .ldF _ => ⟨"LD_F__Vx", .U, 0xF0FF#16, 0xF029#16⟩
  | .ldB _ => ⟨"LD_B__Vx", .U, 0xF0FF#16, 0xF033#16⟩
  | .storeRegs _ => ⟨"LD__I___Vx", .U, 0xF0FF#16, 0xF055#16⟩
  | .loadRegs _ => ⟨"LD_Vx___I", .U, 0xF0FF#16, 0xF065#16⟩

/-- Operand bits of format A: NNN in bits 11:0 (30_encoding.md R73). -/
def operandsA (nnn : Addr) : Nat := nnn.toNat

/-- Operand bits of format I: X in bits 11:8, NN in bits 7:0. -/
def operandsI (x : Reg) (nn : Byte) : Nat := x.val * 0x100 + nn.toNat

/-- Operand bits of format R: X in bits 11:8, Y in bits 7:4. -/
def operandsR (x y : Reg) : Nat := x.val * 0x100 + y.val * 0x10

/-- Operand bits of format D: X in bits 11:8, Y in bits 7:4, N in bits 3:0. -/
def operandsD (x y : Reg) (n : Fin 16) : Nat := x.val * 0x100 + y.val * 0x10 + n.val

/-- Operand bits of format U: X in bits 11:8. -/
def operandsU (x : Reg) : Nat := x.val * 0x100

/-- The operand bits of an instruction, all the bits its row leaves free (30_encoding.md R73, R74). -/
def Instr.operands : Instr → Nat
  | .cls => 0
  | .ret => 0
  | .sys nnn => operandsA nnn
  | .jp nnn => operandsA nnn
  | .call nnn => operandsA nnn
  | .seByte x nn => operandsI x nn
  | .sneByte x nn => operandsI x nn
  | .seReg x y => operandsR x y
  | .ldByte x nn => operandsI x nn
  | .addByte x nn => operandsI x nn
  | .ldReg x y => operandsR x y
  | .orReg x y => operandsR x y
  | .andReg x y => operandsR x y
  | .xorReg x y => operandsR x y
  | .addReg x y => operandsR x y
  | .sub x y => operandsR x y
  | .shr x y => operandsR x y
  | .subn x y => operandsR x y
  | .shl x y => operandsR x y
  | .sneReg x y => operandsR x y
  | .ldI nnn => operandsA nnn
  | .jpV0 nnn => operandsA nnn
  | .rnd x nn => operandsI x nn
  | .drw x y n => operandsD x y n
  | .skp x => operandsU x
  | .sknp x => operandsU x
  | .ldVxDt x => operandsU x
  | .ldVxK x => operandsU x
  | .ldDtVx x => operandsU x
  | .ldStVx x => operandsU x
  | .addI x => operandsU x
  | .ldF x => operandsU x
  | .ldB x => operandsU x
  | .storeRegs x => operandsU x
  | .loadRegs x => operandsU x

/-- The word of an instruction: its row's pattern with its operand bits (30_encoding.md R76). -/
def encode (i : Instr) : Word := BitVec.ofNat 16 (i.row.pattern.toNat + i.operands)

/-- The more significant byte of a word, which memory holds at the lower address (20_memory.md R54). -/
def highByte (w : Word) : Byte := w.extractLsb' 8 8

/-- The less significant byte of a word. -/
def lowByte (w : Word) : Byte := w.extractLsb' 0 8

/-- The two bytes of a word in memory order. -/
def bytesOfWord (w : Word) : List Byte := [highByte w, lowByte w]

/-- The first word of an instruction that the opcode table gives as `nbits` bits `w`: the bits from `nbits` up are 0. -/
def tableWord (nbits w : Nat) : Word := BitVec.ofNat 16 (w % 2 ^ nbits)

/-- The instruction the decoder reads from the bytes of a table word. -/
def decodeTableWord (nbits w : Nat) : Option Instr :=
  match decodeBytes (bytesOfWord (tableWord nbits w)) with
  | .ok (i, _) => some i
  | .error _ => none

end Sys2Proof
end

