-- ==== Sys2Proof/Config.lean ====
section
/-! DEFINITION. What the spec leaves open (spec/00_scope.md R5): the parameters, as plain data that State carries so that a statement about
every state is a statement about every setting (log 1), and the free random byte (log 5). -/

namespace Sys2Proof

/-- The 80 bytes of the glyph table (10_state.md R35, R36; parameter GLYPHS). -/
abbrev Glyphs := Vector Byte 80

/-- What `DRW` does with sprite cells beyond column 63 or row 31 (44_display.md R143 to R145; parameter DRAW_EDGE). -/
inductive DrawEdge where
  | error
  | wrap
  | clip
deriving DecidableEq, Repr

/-- The parameters of the machine (00_scope.md R5). DESIGN CHOICE (log 1). -/
structure Config where
  glyphs : Glyphs
  drawEdge : DrawEdge
  shiftY15Fault : Bool
deriving DecidableEq, Repr

/-- The byte that the n-th executed `RND` draws: a free value under no law (42_register_alu.md R123, D16, U4; log 5). It has no body, so
no proof can know one of its values. -/
opaque Config.rndByte : Nat → Byte

end Sys2Proof
end

