-- ==== Sys2Proof/Machine/Defaults.lean ====
section
/-! DEFINITION. The spec's default parameters (spec/00_scope.md R5), which State.reset holds: GLYPHS from general knowledge (PRESUMED, log 2),
DRAW_EDGE = ERROR (log 3), SHIFT_Y15_FAULT = false (log 4). -/

namespace Sys2Proof

/-- The conventional CHIP-8 hexadecimal font, five bytes per digit, top row first (10_state.md R36; PRESUMED, G2, log 2). -/
def defaultGlyphs : Glyphs :=
  #v[0xF0, 0x90, 0x90, 0x90, 0xF0,  0x20, 0x60, 0x20, 0x20, 0x70,
     0xF0, 0x10, 0xF0, 0x80, 0xF0,  0xF0, 0x10, 0xF0, 0x10, 0xF0,
     0x90, 0x90, 0xF0, 0x10, 0x10,  0xF0, 0x80, 0xF0, 0x10, 0xF0,
     0xF0, 0x80, 0xF0, 0x90, 0xF0,  0xF0, 0x10, 0x20, 0x40, 0x40,
     0xF0, 0x90, 0xF0, 0x90, 0xF0,  0xF0, 0x90, 0xF0, 0x10, 0xF0,
     0xF0, 0x90, 0xF0, 0x90, 0x90,  0xE0, 0x90, 0xE0, 0x90, 0xE0,
     0xF0, 0x80, 0x80, 0x80, 0xF0,  0xE0, 0x90, 0x90, 0x90, 0xE0,
     0xF0, 0x80, 0xF0, 0x80, 0xF0,  0xF0, 0x80, 0xF0, 0x80, 0x80]

/-- The defaults of 00_scope.md R5 (D7, D9, D13). -/
def defaultConfig : Config :=
  { glyphs := defaultGlyphs
    drawEdge := .error
    shiftY15Fault := false }

end Sys2Proof
end

