-- ==== Sys2Proof/Machine/State.lean ====
section
/-! DEFINITION. The machine's state as plain data: the spec's tuple (spec/10_state.md, opening and R20 to R39), and the model's own fields
for the parameters, the free random bytes, the output events and the host's schedule (log 1, 5, 6, 7); the faults, the refusals; reset. -/

namespace Sys2Proof.Machine

/-- MODE, the executor state (10_state.md R30). -/
inductive Mode where
  | running
  | awaitingKey (t : Reg)
deriving DecidableEq, Repr

/-- The output events of 10_state.md R41. -/
inductive Event where
  | drawNotify
  | soundOn
  | soundOff
deriving DecidableEq, Repr

/-- The sixteen key states, true meaning pressed (10_state.md R32). -/
abbrev Keys := Vector Bool 16

/-- The five host operations (60_exceptions.md R177). -/
inductive HostOp where
  | step
  | tick
  | setKeys (keys : Keys)
  | loadProgram (bytes : List Byte)
  | reset
deriving DecidableEq, Repr

/-- The frame buffer: 32 rows of 64 one-bit pixels, column x of row y being bit x of entry y (10_state.md R33; packing log 22). -/
abbrev FrameBuffer := Vector (BitVec 64) 32

/-- Memory: the bytes that differ from the reset contents, by strictly rising address (10_state.md R34; log 20). -/
abbrev Memory := List Host.Cell

/-- The state of the machine. -/
structure State where
  /-- V[0] to V[15] (10_state.md R20). -/
  v : Vector Byte 16
  /-- I (R25). -/
  i : Addr
  /-- PC (R24). -/
  pc : Addr
  /-- SP, 0 to 16 (R27). -/
  sp : Fin 17
  /-- S[0] to S[15] (R26). -/
  stack : Vector Addr 16
  /-- DT (R28). -/
  dt : Byte
  /-- ST (R29). -/
  st : Byte
  /-- MODE (R30). -/
  mode : Mode
  /-- K[0] to K[15] (R32). -/
  keys : Keys
  /-- FB (R33). -/
  fb : FrameBuffer
  /-- MEM (R34). -/
  mem : Memory
  /-- IMG, the program image latch (R39). -/
  img : List Byte
  /-- The parameters of 00_scope.md R5; the model's own field (log 1). -/
  config : Config
  /-- How many random bytes were drawn; the model's own field (log 5). -/
  draws : Nat
  /-- The output events so far, oldest first; the model's own field (log 6). -/
  events : List Event
  /-- The operations the host will issue, next first; then only `Step`s; the model's own field (log 7). -/
  schedule : List HostOp
deriving DecidableEq, Repr

/-- The error kinds of `Step` (60_exceptions.md R160). The hardware reports the kind to the host and changes nothing (R170); the model ends
the run there, which is safe (R171, D22, U8; log 8). -/
inductive Fault where
  /-- R161: a word that is `SYS` or no instruction, and the shifts with Y = 15 when SHIFT_Y15_FAULT is true. Safe. -/
  | illegalInstruction
  /-- R162: `CALL` with SP = 16. Safe. -/
  | stackOverflow
  /-- R163: `RET` with SP = 0. Safe. -/
  | stackUnderflow
  /-- R164: `JP addr`, `CALL addr`, `JP V0,addr` to a target below 0x200 or above 0xFFF. Safe. -/
  | invalidJumpTarget
  /-- R165: `LD B,Vx`, `LD [I],Vx` with a byte outside 0x200 to 0xFFF. Safe. -/
  | addressOutOfRange
  /-- R166: `ADD I,Vx`, `LD Vx,[I]`, `DRW` past 0xFFF. Safe. -/
  | addressOverflow
  /-- R167: `SKP`, `SKNP`, `LD F,Vx` with V[X] above 0xF. Safe. -/
  | invalidRegisterValue
  /-- R168: a fetch, a PC update or `CALL`'s return address past 0xFFF (D1; log 12). Safe. -/
  | pcOutOfRange
  /-- R168: `DRW` whose box leaves the buffer under DRAW_EDGE = ERROR (D9; log 3). Safe. -/
  | drawOutOfBounds
deriving DecidableEq, Repr

/-- What the model rejects. -/
inductive Refusal where
  /-- An instruction without a meaning, by its mnemonic; raised by no arm. Safe. -/
  | notModelled (mnemonic : String)
  /-- 93_implementation_defined.md U10: `LoadProgram` of more than 3584 bytes is refused outright and changes nothing (70_reset_and_hazards.md
  R204; log 9). Raised by that host operation only. Safe. -/
  | programTooLarge
deriving DecidableEq, Repr

/-- What an operation of the machine answers. -/
abbrev Result := Host.Outcome State Fault Refusal

/-- The state at power-on, which is `Reset` with IMG empty (70_reset_and_hazards.md R201; 10_state.md R44). -/
def State.reset : State :=
  { v := Vector.replicate 16 0#8
    i := 0#12
    pc := 0x200#12
    sp := 0
    stack := Vector.replicate 16 0#12
    dt := 0#8
    st := 0#8
    mode := .running
    keys := Vector.replicate 16 false
    fb := Vector.replicate 32 0#64
    mem := []
    img := []
    config := defaultConfig
    draws := 0
    events := []
    schedule := [] }

end Sys2Proof.Machine
end

