-- ==== Sys2Proof/Machine/Ops.lean ====
section
/-! DEFINITION. The named operations over the state: memory in its canonical form, registers, program counter, call stack, timers and sound
edges, frame buffer, output events, errors (spec/00_scope.md R9 to R11; 10_state.md; 20_memory.md). -/

namespace Sys2Proof.Machine

/-! ### Memory -/

/-- MEM_SIZE (00_scope.md R4). -/
abbrev memSize : Nat := 4096

/-- PROG_BASE (00_scope.md R4). -/
abbrev progBase : Nat := 0x200

/-- MAX_PROG (00_scope.md R4). -/
abbrev maxProg : Nat := 3584

/-- What an unlisted address reads as: the reset contents, GLYPHS below 0x050 and 0 above (10_state.md R44; log 20). -/
def Memory.blank (g : Glyphs) (a : Nat) : Byte :=
  if h : a < 80 then g[a] else 0#8

/-- The entry listed for an address. -/
def Memory.lookup : Memory → Nat → Option Byte
  | [], _ => none
  | (k, c) :: m, a => if k = a then some c else Memory.lookup m a

/-- `MemRead(a, 1)` (00_scope.md R10). -/
def Memory.read (g : Glyphs) (m : Memory) (a : Nat) : Byte :=
  (Memory.lookup m a).getD (Memory.blank g a)

/-- The list without an entry for `a`. -/
def Memory.erase (m : Memory) (a : Nat) : Memory :=
  m.filter fun e => e.1 != a

/-- The list with the entry `(a, b)` before the first larger address. -/
def Memory.insert : Memory → Nat → Byte → Memory
  | [], a, b => [(a, b)]
  | (k, c) :: m, a, b => if a < k then (a, b) :: (k, c) :: m else (k, c) :: Memory.insert m a b

/-- `MemWrite(a, 1, b)` (00_scope.md R10). Writing what an unlisted address reads as removes the entry, so the form stays canonical. -/
def Memory.write (g : Glyphs) (m : Memory) (a : Nat) (b : Byte) : Memory :=
  if b = Memory.blank g a then Memory.erase m a else Memory.insert (Memory.erase m a) a b

/-- Strictly rising addresses from `lo` on, inside the address space, and no entry equal to what an unlisted address reads as. -/
def Memory.wfFrom (g : Glyphs) : Nat → Memory → Bool
  | _, [] => true
  | lo, (k, c) :: m => decide (lo ≤ k) && decide (k < memSize) && (c != Memory.blank g k) && Memory.wfFrom g (k + 1) m

/-- The canonical form of memory. -/
def Memory.wf (g : Glyphs) (m : Memory) : Bool := Memory.wfFrom g 0 m

/-- Consecutive byte writes from `a` upward, in ascending order (20_memory.md R55). -/
def Memory.writeBytes (g : Glyphs) : Memory → Nat → List Byte → Memory
  | m, _, [] => m
  | m, a, b :: bs => Memory.writeBytes g (Memory.write g m a b) (a + 1) bs

/-- The entries of a byte sequence placed from `a` upward over blank memory. -/
def Memory.ofBytes (g : Glyphs) : Nat → List Byte → Memory
  | _, [] => []
  | a, b :: bs => if b = Memory.blank g a then Memory.ofBytes g (a + 1) bs else (a, b) :: Memory.ofBytes g (a + 1) bs

/-- The byte at an address. -/
def State.readByte (s : State) (a : Nat) : Byte := Memory.read s.config.glyphs s.mem a

/-- Memory is in its canonical form. -/
def State.memWf (s : State) : Bool := Memory.wf s.config.glyphs s.mem

/-- Replace memory as a whole. -/
def State.setMem (s : State) (m : Memory) : State := { s with mem := m }

/-- Write a byte sequence at `a`, `a + 1`, and so on. -/
def State.writeBytes (s : State) (a : Nat) (bs : List Byte) : State :=
  s.setMem (Memory.writeBytes s.config.glyphs s.mem a bs)

/-! ### Registers -/

/-- `V[x]` (10_state.md R20). -/
def State.reg (s : State) (x : Reg) : Byte := s.v[x]

/-- `V[x] <- b`. No register is hardwired (10_state.md R20). -/
def State.setReg (s : State) (x : Reg) (b : Byte) : State := { s with v := s.v.set x b }

/-- Replace all sixteen registers. -/
def State.setV (s : State) (v : Vector Byte 16) : State := { s with v := v }

/-- `I <- a` (10_state.md R25). -/
def State.setI (s : State) (a : Addr) : State := { s with i := a }

/-- `PC <- a` (10_state.md R24). -/
def State.setPc (s : State) (a : Addr) : State := { s with pc := a }

/-- `DT <- b` (10_state.md R28). -/
def State.setDt (s : State) (b : Byte) : State := { s with dt := b }

/-- `MODE <- m` (10_state.md R30). -/
def State.setMode (s : State) (m : Mode) : State := { s with mode := m }

/-- All sixteen keys at once (60_exceptions.md R180). -/
def State.setKeys (s : State) (k : Keys) : State := { s with keys := k }

/-- Replace the frame buffer. -/
def State.setFb (s : State) (f : FrameBuffer) : State := { s with fb := f }

/-- Replace the program image latch (10_state.md R39). -/
def State.setImg (s : State) (bytes : List Byte) : State := { s with img := bytes }

/-- Replace the host's schedule. -/
def State.setSchedule (s : State) (ops : List HostOp) : State := { s with schedule := ops }

/-- Count one drawn random byte. -/
def State.countDraw (s : State) : State := { s with draws := s.draws + 1 }

/-! ### Events, timers -/

/-- `emit` (00_scope.md R11): append output events. -/
def State.emit (s : State) (es : List Event) : State := { s with events := s.events ++ es }

/-- The edges of the sound level `ST != 0` (10_state.md R42; D17, log 16). -/
def soundEdges (old new : Byte) : List Event :=
  if old = 0#8 ∧ new ≠ 0#8 then [.soundOn]
  else if old ≠ 0#8 ∧ new = 0#8 then [.soundOff]
  else []

/-- `ST <- b` with the edge it makes (10_state.md R42). -/
def State.setSt (s : State) (b : Byte) : State :=
  { s with st := b, events := s.events ++ soundEdges s.st b }

/-! ### Errors and the program counter -/

/-- `raise E` (00_scope.md R11; 60_exceptions.md R170): there is no handler, no saved register and no mode change; the operation answers the
error kind. There is no return from an error either (R171). -/
def raise (f : Fault) : Result := .fault f

/-- The state the hardware is left in by an operation issued in `s`: unchanged when it answers an error (40_execution_cycle.md R97). -/
def stateAfter (s : State) : Result → State
  | .next t => t
  | .fault _ => s
  | .refused _ => s

/-- `advance(k)` (00_scope.md R11; 40_execution_cycle.md R95; D1, log 12). -/
def advance (k : Nat) (s : State) : Result :=
  if s.pc.toNat + k ≤ 0xFFF then .next (s.setPc (s.pc + BitVec.ofNat 12 k)) else raise .pcOutOfRange

/-- The conditional skip (40_execution_cycle.md R95). -/
def skipIf (c : Bool) (s : State) : Result :=
  if c then advance 4 s else advance 2 s

/-! ### Call stack -/

/-- `S[SP] <- ret; SP <- SP + 1`, or none when SP = 16 (10_state.md R26, R27). -/
def State.push (s : State) (ret : Addr) : Option State :=
  if h : s.sp.val < 16 then
    some { s with stack := s.stack.set s.sp.val ret, sp := ⟨s.sp.val + 1, by omega⟩ }
  else none

/-- `S[SP-1]` and the state with SP - 1, or none when SP = 0; the entry stays as it is (10_state.md R26, R27). -/
def State.pop (s : State) : Option (Addr × State) :=
  if h : s.sp.val = 0 then none
  else some (s.stack[s.sp.val - 1]'(by omega), { s with sp := ⟨s.sp.val - 1, by omega⟩ })

/-! ### Frame buffer -/

/-- FB[x,y] (10_state.md R33). -/
def FrameBuffer.pixel (f : FrameBuffer) (x : Fin 64) (y : Fin 32) : Bool := f[y].getLsbD x

/-- FB[x,y] xor 1. -/
def FrameBuffer.flip (f : FrameBuffer) (x : Fin 64) (y : Fin 32) : FrameBuffer :=
  f.set y (f[y] ^^^ BitVec.twoPow 64 x)

/-- Every pixel 0. -/
def FrameBuffer.clear : FrameBuffer := Vector.replicate 32 0#64

/-- `place` of 44_display.md R143 to R145: the pixel a sprite cell aimed at column `cx`, row `cy` lands on, or none. Under ERROR a draw with a
cell outside is refused before (R143). -/
def place (e : DrawEdge) (cx cy : Nat) : Option (Fin 64 × Fin 32) :=
  match e with
  | .wrap => some (⟨cx % 64, Nat.mod_lt _ (by decide)⟩, ⟨cy % 32, Nat.mod_lt _ (by decide)⟩)
  | .error | .clip =>
    if h : cx < 64 ∧ cy < 32 then some (⟨cx, h.1⟩, ⟨cy, h.2⟩) else none

/-- The pixels on which the set bits of one row byte land, leftmost first: column c is bit 7 - c (44_display.md R141; PRESUMED, G3, log 11). -/
def rowPixels (e : DrawEdge) (x0 y : Nat) (b : Byte) : List (Fin 64 × Fin 32) :=
  (List.range 8).filterMap fun c => if b.getLsbD (7 - c) then place e (x0 + c) y else none

/-- The pixels on which the set bits of a sprite land, row by row (44_display.md R142). -/
def spritePixels (e : DrawEdge) (x0 : Nat) : Nat → List Byte → List (Fin 64 × Fin 32)
  | _, [] => []
  | y, b :: bs => rowPixels e x0 y b ++ spritePixels e x0 (y + 1) bs

/-- The inner step of 44_display.md R142: note a hit on a set pixel, then flip it. -/
def drawPixel (acc : FrameBuffer × Bool) (p : Fin 64 × Fin 32) : FrameBuffer × Bool :=
  (acc.1.flip p.1 p.2, acc.2 || acc.1.pixel p.1 p.2)

/-- The whole loop of 44_display.md R142: the new frame buffer and the collision. -/
def drawPixels (f : FrameBuffer) (ps : List (Fin 64 × Fin 32)) : FrameBuffer × Bool :=
  ps.foldl drawPixel (f, false)

end Sys2Proof.Machine
end

