-- ==== Sys2Proof/Machine/HostOps.lean ====
section
/-! DEFINITION. The host operations other than `Step` (spec/60_exceptions.md R177), and which one comes next. -/

namespace Sys2Proof.Machine

/-- `Tick` (60_exceptions.md R174), in either mode. -/
def hostTick (s : State) : State :=
  (s.setDt (if s.dt = 0#8 then 0#8 else s.dt - 1#8)).setSt (if s.st = 0#8 then 0#8 else s.st - 1#8)

/-- `SetKeys` (60_exceptions.md R180), in either mode. -/
def hostSetKeys (k : Keys) (s : State) : State := s.setKeys k

/-- The entries of 0x050 to 0x1FF, which `LoadProgram` leaves alone (70_reset_and_hazards.md R204). -/
def Memory.lowRegion (m : Memory) : Memory := m.filter fun e => decide (0x050 ≤ e.1) && decide (e.1 < progBase)

/-- `LoadProgram` (70_reset_and_hazards.md R204): the glyph table is asserted again, the program region is the program and zeros. -/
def hostLoadProgram (bytes : List Byte) (s : State) : Result :=
  if bytes.length ≤ maxProg then
    .next ((s.setMem (Memory.lowRegion s.mem ++ Memory.ofBytes s.config.glyphs progBase bytes)).setImg bytes)
  else .refused .programTooLarge

/-- `Reset` (70_reset_and_hazards.md R200): everything but IMG, with the falling sound edge. The parameters, the random bytes already drawn, the
events already emitted and the host's schedule are no state of the core (10_state.md R45) and stay. -/
def hostReset (s : State) : State :=
  { State.reset with
    mem := Memory.ofBytes s.config.glyphs progBase (s.img.take maxProg)
    img := s.img
    config := s.config
    draws := s.draws
    events := s.events ++ soundEdges s.st 0#8
    schedule := s.schedule }

/-- The operation the host issues next, and the state with it taken off the schedule; `Step` when none is listed (log 7). -/
def nextOp (s : State) : HostOp × State :=
  match s.schedule with
  | [] => (.step, s)
  | op :: rest => (op, s.setSchedule rest)

end Sys2Proof.Machine
end

