-- ==== Sys2Proof/Machine/Operands.lean ====
section
/-! DEFINITION. The operand forms that can fail or that read several bytes (spec/43_index_memory.md opening; 30_encoding.md R75): jump targets,
key and glyph indices, and the ranges from I. -/

namespace Sys2Proof.Machine

/-- A jump target, which must lie in 0x200 to 0xFFF (60_exceptions.md R164); `t` is computed without wrap. -/
def jumpTarget (t : Nat) : Option Addr :=
  if 0x200 ≤ t ∧ t ≤ 0xFFF then some (BitVec.ofNat 12 t) else none

/-- A register value used as a key or glyph index, not masked (60_exceptions.md R167). -/
def keyIndex (b : Byte) : Option Reg :=
  if h : b.toNat < 16 then some ⟨b.toNat, h⟩ else none

/-- The bytes I to I + `last` may be stored to: all in 0x200 to 0xFFF (60_exceptions.md R165). -/
def storeRangeOk (s : State) (last : Nat) : Bool :=
  decide (0x200 ≤ s.i.toNat) && decide (s.i.toNat + last ≤ 0xFFF)

/-- The bytes I to I + `last` may be read: none above 0xFFF (60_exceptions.md R166). -/
def loadRangeOk (s : State) (last : Nat) : Bool :=
  decide (s.i.toNat + last ≤ 0xFFF)

/-- The `n` bytes from I upward (20_memory.md R55). -/
def bytesFromI (s : State) (n : Nat) : List Byte :=
  (List.range n).map fun k => s.readByte (s.i.toNat + k)

/-- V[0] to V[x] in ascending order (43_index_memory.md R134). -/
def regsUpTo (s : State) (x : Reg) : List Byte := s.v.toList.take (x.val + 1)

/-- V with `V[k] <- MEM[I + k]` for k from 0 to x in ascending order (43_index_memory.md R135). -/
def loadedRegs (s : State) (x : Reg) : Vector Byte 16 :=
  (List.range (x.val + 1)).foldl (fun v k => v.setIfInBounds k (s.readByte (s.i.toNat + k))) s.v

/-- The three decimal digits of a byte, hundreds first (43_index_memory.md R133). -/
def decimalDigits (b : Byte) : List Byte :=
  [BitVec.ofNat 8 (b.toNat / 100), BitVec.ofNat 8 (b.toNat / 10 % 10), BitVec.ofNat 8 (b.toNat % 10)]

/-- The sprite box of a draw lies wholly inside the buffer, or there is no row to draw (44_display.md R143). -/
def spriteBoxOk (s : State) (x y : Reg) (n : Fin 16) : Bool :=
  decide (n.val = 0) || (decide ((s.reg x).toNat + 7 ≤ 63) && decide ((s.reg y).toNat + n.val ≤ 32))

/-- The sprite's bytes I to I + n - 1 exist, or there is no row to draw (44_display.md R142; D10, log 26). -/
def spriteReadOk (s : State) (n : Fin 16) : Bool :=
  decide (n.val = 0) || decide (s.i.toNat + n.val ≤ 0x1000)

/-- The lowest pressed key (45_keypad_timers.md R154; D15, log 15). -/
def firstPressed (k : Keys) : Option Reg :=
  (List.finRange 16).find? fun j => k[j]

end Sys2Proof.Machine
end

