-- ==== Sys2Proof/Machine/Keypad.lean ====
section
/-! DEFINITION. Keypad and timer instructions and the key poll (spec/45_keypad_timers.md). -/

namespace Sys2Proof.Machine

/-- R150. -/
def execSkp (x : Reg) (s : State) : Result :=
  match keyIndex (s.reg x) with
  | none => raise .invalidRegisterValue
  | some k => skipIf s.keys[k] s

/-- R151. -/
def execSknp (x : Reg) (s : State) : Result :=
  match keyIndex (s.reg x) with
  | none => raise .invalidRegisterValue
  | some k => skipIf (!s.keys[k]) s

/-- R152. -/
def execLdVxDt (x : Reg) (s : State) : Result := advance 2 (s.setReg x s.dt)

/-- R153: the range check of the later advance is made now; PC stays, the keys are not sampled (D1, D15; log 12, 15). -/
def execLdVxK (x : Reg) (s : State) : Result :=
  if s.pc.toNat + 2 ≤ 0xFFF then .next (s.setMode (.awaitingKey x)) else raise .pcOutOfRange

/-- R155. -/
def execLdDtVx (x : Reg) (s : State) : Result := advance 2 (s.setDt (s.reg x))

/-- R156, with the edges of 10_state.md R42. -/
def execLdStVx (x : Reg) (s : State) : Result := advance 2 (s.setSt (s.reg x))

/-- R154, a `Step` in mode AwaitingKey(t): no fetch, no check, no error (60_exceptions.md R169). R153 has made sure that PC + 2 is in range; in
states no run reaches the sum is taken mod 4096 (log 19). -/
def keyPoll (t : Reg) (s : State) : State :=
  match firstPressed s.keys with
  | some k => ((s.setReg t (BitVec.ofNat 8 k.val)).setPc (s.pc + 2#12)).setMode .running
  | none => s

end Sys2Proof.Machine
end

