-- ==== Sys2Proof/Machine/Cycle.lean ====
section
/-! DEFINITION. The execution cycle (spec/40_execution_cycle.md R90 to R96), over the dispatch function it is given, and the placing of one word
where the next cycle fetches. -/

namespace Sys2Proof.Machine

/-- The fetch of R92: big-endian, from any PC with PC + 1 ≤ 0xFFF. -/
def fetchWord (s : State) : Option Word :=
  if s.pc.toNat + 1 ≤ 0xFFF then some (wordOfBytes (s.readByte s.pc.toNat) (s.readByte (s.pc.toNat + 1))) else none

/-- Fetch, then decode, with the errors in that order (60_exceptions.md R169). -/
def fetchInstr (s : State) : Except Fault Instr :=
  match fetchWord s with
  | none => .error .pcOutOfRange
  | some w =>
    match decodeWord w with
    | .ok i => .ok i
    | .error _ => .error .illegalInstruction

/-- `Step()` (R90): the key poll in mode AwaitingKey, else fetch, decode, execute. -/
def stepWith (run : Instr → State → Result) (s : State) : Result :=
  match s.mode with
  | .awaitingKey t => .next (keyPoll t s)
  | .running =>
    match fetchInstr s with
    | .error f => raise f
    | .ok i => run i s

/-- One host operation (60_exceptions.md R177). -/
def operateWith (run : Instr → State → Result) (op : HostOp) (s : State) : Result :=
  match op with
  | .step => stepWith run s
  | .tick => .next (hostTick s)
  | .setKeys k => .next (hostSetKeys k s)
  | .loadProgram bytes => hostLoadProgram bytes s
  | .reset => .next (hostReset s)

/-- Where a placed word goes: PC, or 0x200 when no word can be fetched at PC. -/
def placePc (s : State) : Addr := if s.pc.toNat + 1 ≤ 0xFFF then s.pc else 0x200#12

/-- The schedule with `Step` as its next operation. -/
def stepNext (ops : List HostOp) : List HostOp :=
  match ops with
  | [] => []
  | .step :: rest => .step :: rest
  | .tick :: rest => .step :: .tick :: rest
  | .setKeys k :: rest => .step :: .setKeys k :: rest
  | .loadProgram bytes :: rest => .step :: .loadProgram bytes :: rest
  | .reset :: rest => .step :: .reset :: rest

/-- The state whose next step fetches `w` (log 21): the word's two bytes at PC, mode Running, `Step` next. -/
def placeWord (s : State) (w : Word) : State :=
  ((((s.setPc (placePc s)).setMode .running).setSchedule (stepNext s.schedule)).writeBytes (placePc s).toNat (bytesOfWord w))

end Sys2Proof.Machine
end

