-- ==== Sys2Proof/Machine/Flags.lean ====
section
/-! DEFINITION. The values VF takes (spec/10_state.md R23; 42_register_alu.md R110) and the two orders of the two writes (R111). -/

namespace Sys2Proof.Machine

/-- VF holds 0 or 1, never another value, when written as a flag (10_state.md R23). -/
def flagByte (c : Bool) : Byte := if c then 1#8 else 0#8

/-- The carry of `ADD Vx,Vy`: the true sum is 256 or more (42_register_alu.md R119). -/
def carryFlag (a b : Byte) : Byte := flagByte (decide (256 ≤ a.toNat + b.toNat))

/-- The flag of a subtraction: minuend strictly greater than subtrahend (42_register_alu.md R110, R121, R122). -/
def greaterFlag (a b : Byte) : Byte := flagByte (decide (b.toNat < a.toNat))

/-- The bit `SHR` shifts out (42_register_alu.md R118). -/
def lowBitFlag (a : Byte) : Byte := flagByte (a.getLsbD 0)

/-- The bit `SHL` shifts out (42_register_alu.md R120). -/
def highBitFlag (a : Byte) : Byte := flagByte (a.getLsbD 7)

/-- `V[X] <- r` and then `V[15] <- flag`: with X = 15 the flag stands (42_register_alu.md R111; D12, log 14). -/
def State.setRegThenFlag (s : State) (x : Reg) (r flag : Byte) : State := (s.setReg x r).setReg vf flag

/-- `V[15] <- flag` and then `V[X] <- r`: with X = 15 the result stands (42_register_alu.md R111; D12, log 14). -/
def State.setFlagThenReg (s : State) (x : Reg) (r flag : Byte) : State := (s.setReg vf flag).setReg x r

end Sys2Proof.Machine
end

