-- ==== Sys2Proof/Machine/Alu.lean ====
section
/-! DEFINITION. Register loads, arithmetic, logic, shifts, random (spec/42_register_alu.md). Every operand is read before anything is written
(R111); every instruction ends with `advance(2)`. -/

namespace Sys2Proof.Machine

/-- R112. -/
def execLdByte (x : Reg) (nn : Byte) (s : State) : Result := advance 2 (s.setReg x nn)

/-- R113: VF is not written. -/
def execAddByte (x : Reg) (nn : Byte) (s : State) : Result := advance 2 (s.setReg x (s.reg x + nn))

/-- R114. -/
def execLdReg (x y : Reg) (s : State) : Result := advance 2 (s.setReg x (s.reg y))

/-- R115. -/
def execOrReg (x y : Reg) (s : State) : Result := advance 2 (s.setReg x (s.reg x ||| s.reg y))

/-- R116. -/
def execAndReg (x y : Reg) (s : State) : Result := advance 2 (s.setReg x (s.reg x &&& s.reg y))

/-- R117. -/
def execXorReg (x y : Reg) (s : State) : Result := advance 2 (s.setReg x (s.reg x ^^^ s.reg y))

/-- R119. -/
def execAddReg (x y : Reg) (s : State) : Result :=
  advance 2 (s.setRegThenFlag x (s.reg x + s.reg y) (carryFlag (s.reg x) (s.reg y)))

/-- R121. -/
def execSub (x y : Reg) (s : State) : Result :=
  advance 2 (s.setRegThenFlag x (s.reg x - s.reg y) (greaterFlag (s.reg x) (s.reg y)))

/-- R122. -/
def execSubn (x y : Reg) (s : State) : Result :=
  advance 2 (s.setRegThenFlag x (s.reg y - s.reg x) (greaterFlag (s.reg y) (s.reg x)))

/-- With SHIFT_Y15_FAULT true, a shift with Y = 15 is refused before anything else (42_register_alu.md R118, R120; D13, log 4). -/
def shiftRefused (y : Reg) (s : State) : Bool := s.config.shiftY15Fault && y == vf

/-- R118: Y is ignored but for SHIFT_Y15_FAULT. -/
def execShr (x y : Reg) (s : State) : Result :=
  if shiftRefused y s then raise .illegalInstruction
  else advance 2 (s.setFlagThenReg x (s.reg x >>> 1) (lowBitFlag (s.reg x)))

/-- R120: Y is ignored but for SHIFT_Y15_FAULT. -/
def execShl (x y : Reg) (s : State) : Result :=
  if shiftRefused y s then raise .illegalInstruction
  else advance 2 (s.setFlagThenReg x (s.reg x <<< 1) (highBitFlag (s.reg x)))

/-- R123: the next random byte is a free value (D16, log 5); a raise draws none. -/
def execRnd (x : Reg) (nn : Byte) (s : State) : Result :=
  advance 2 ((s.setReg x (Config.rndByte s.draws &&& nn)).countDraw)

end Sys2Proof.Machine
end

