-- ==== Sys2Proof/Machine/Control.lean ====
section
/-! DEFINITION. Control transfer (spec/41_control_flow.md): SYS, RET, JP, CALL, SE, SNE, JP V0. -/

namespace Sys2Proof.Machine

/-- R100: always `IllegalInstruction`; NNN is not used. -/
def execSys (_nnn : Addr) (_s : State) : Result := raise .illegalInstruction

/-- R101. -/
def execRet (s : State) : Result :=
  match s.pop with
  | none => raise .stackUnderflow
  | some (ret, t) => .next (t.setPc ret)

/-- R102. -/
def execJp (nnn : Addr) (s : State) : Result :=
  match jumpTarget nnn.toNat with
  | none => raise .invalidJumpTarget
  | some t => .next (s.setPc t)

/-- R103: target, then depth, then return address (D4, log 18); the entry is the address after the `CALL` (D2, log 13). -/
def execCall (nnn : Addr) (s : State) : Result :=
  match jumpTarget nnn.toNat with
  | none => raise .invalidJumpTarget
  | some t =>
    match s.push (s.pc + 2#12) with
    | none => raise .stackOverflow
    | some u => if s.pc.toNat + 2 ≤ 0xFFF then .next (u.setPc t) else raise .pcOutOfRange

/-- R104. -/
def execSeByte (x : Reg) (nn : Byte) (s : State) : Result := skipIf (s.reg x == nn) s

/-- R105. -/
def execSneByte (x : Reg) (nn : Byte) (s : State) : Result := skipIf (s.reg x != nn) s

/-- R106. -/
def execSeReg (x y : Reg) (s : State) : Result := skipIf (s.reg x == s.reg y) s

/-- R107. -/
def execSneReg (x y : Reg) (s : State) : Result := skipIf (s.reg x != s.reg y) s

/-- R108: the sum is not reduced before the check. -/
def execJpV0 (nnn : Addr) (s : State) : Result :=
  match jumpTarget ((s.reg 0).toNat + nnn.toNat) with
  | none => raise .invalidJumpTarget
  | some t => .next (s.setPc t)

end Sys2Proof.Machine
end

