-- ==== Sys2Proof/Machine/Display.lean ====
section
/-! DEFINITION. CLS and DRW (spec/44_display.md). -/

namespace Sys2Proof.Machine

/-- R140. -/
def execCls (s : State) : Result := advance 2 ((s.setFb FrameBuffer.clear).emit [.drawNotify])

/-- The draw of R142 once its checks have passed: the new frame buffer and the collision, from the operands as they were. -/
def drawResult (x y : Reg) (n : Fin 16) (s : State) : FrameBuffer × Bool :=
  drawPixels s.fb
    (spritePixels s.config.drawEdge (s.reg x).toNat (s.reg y).toNat (bytesFromI s n.val))

/-- R142, with the checks in its order: the read past 0xFFF, the box under DRAW_EDGE = ERROR (R143), the advance. -/
def execDrw (x y : Reg) (n : Fin 16) (s : State) : Result :=
  if !spriteReadOk s n then raise .addressOverflow
  else if s.config.drawEdge == .error && !spriteBoxOk s x y n then raise .drawOutOfBounds
  else
    let r := drawResult x y n s
    advance 2 (((s.setFb r.1).setReg vf (flagByte r.2)).emit [.drawNotify])

end Sys2Proof.Machine
end

