-- ==== Sys2Proof/Machine/Index.lean ====
section
/-! DEFINITION. The index register and memory transfers (spec/43_index_memory.md). Each ends with `advance(2)` after its own check; I is
changed only by the first three (R136, D14, log 23). -/

namespace Sys2Proof.Machine

/-- R130. -/
def execLdI (nnn : Addr) (s : State) : Result := advance 2 (s.setI nnn)

/-- R131: VF is not written (D21, log 24). -/
def execAddI (x : Reg) (s : State) : Result :=
  if s.i.toNat + (s.reg x).toNat ≤ 0xFFF then advance 2 (s.setI (s.i + (s.reg x).setWidth 12))
  else raise .addressOverflow

/-- R132. -/
def execLdF (x : Reg) (s : State) : Result :=
  match keyIndex (s.reg x) with
  | none => raise .invalidRegisterValue
  | some d => advance 2 (s.setI (BitVec.ofNat 12 (5 * d.val)))

/-- R133. -/
def execLdB (x : Reg) (s : State) : Result :=
  if storeRangeOk s 2 then advance 2 (s.writeBytes s.i.toNat (decimalDigits (s.reg x)))
  else raise .addressOutOfRange

/-- R134: the whole range is checked before the first byte is stored. -/
def execStoreRegs (x : Reg) (s : State) : Result :=
  if storeRangeOk s x.val then advance 2 (s.writeBytes s.i.toNat (regsUpTo s x))
  else raise .addressOutOfRange

/-- R135: no lower bound. -/
def execLoadRegs (x : Reg) (s : State) : Result :=
  if loadRangeOk s x.val then advance 2 (s.setV (loadedRegs s x))
  else raise .addressOverflow

end Sys2Proof.Machine
end

