-- ==== Sys2Proof/Machine/Step.lean ====
section
/-! DEFINITION. The step of the machine: the next host operation (spec/60_exceptions.md R177), `Step` being the execution cycle of
spec/40_execution_cycle.md R90. -/

namespace Sys2Proof.Machine

/-- One host operation on the machine. -/
def operate (op : HostOp) (s : State) : Result := operateWith exec op s

/-- The machine's step: the operation the host issues next. -/
def step (s : State) : Host.Outcome State Fault Refusal := operate (nextOp s).1 (nextOp s).2

/-- The state with the table's word placed where the next step fetches (log 21). -/
def State.withFetchWord (s : State) (nbits w : Nat) : State := placeWord s (tableWord nbits w)

end Sys2Proof.Machine
end

