-- ==== Sys2Proof/Safety.lean ====
section
/-! DEFINITION. What counts as a safe run, as rest, and the invariant of the states that runs reach (spec/10_state.md R43;
60_exceptions.md R171; 70_reset_and_hazards.md R208). -/

namespace Sys2Proof.Machine

/-- `k` operations in a row succeed: a run in which any operation answers an error is faulted for good (60_exceptions.md R171). -/
def SafeFor (k : Nat) (s : State) : Prop := ∃ t, Sys2Proof.core.run k s = .next t

/-- At rest: MODE is Running and the word at PC is `JP PC` (70_reset_and_hazards.md R208, D25; the convention of the spec, not a machine
feature). -/
def AtRest (s : State) : Prop :=
  s.mode = .running ∧ fetchWord s = some (BitVec.ofNat 16 (0x1000 + s.pc.toNat))

/-- The invariants of 10_state.md R43, with the canonical form of memory (log 20) and the length of IMG (R39). R43 (b) and the upper bounds
of (a) and (c) hold by the types. -/
structure StateInv (s : State) : Prop where
  /-- R43 (a). -/
  pcLow : 0x200 ≤ s.pc.toNat
  /-- R43 (c). -/
  liveEntries : ∀ k : Fin 16, k.val < s.sp.val → 0x202 ≤ (s.stack[k]).toNat
  /-- R43 (d). -/
  lowMemory : ∀ a, a < 0x200 → s.readByte a = Memory.blank s.config.glyphs a
  /-- R43 (e), first half. -/
  waiting : ∀ t, s.mode = .awaitingKey t → s.pc.toNat + 2 ≤ 0xFFF
  /-- R39. -/
  image : s.img.length ≤ maxProg
  /-- The canonical form of memory. -/
  memory : s.memWf = true

/-! ### Straight runs of instructions -/

/-- The instructions of a list one after another, without fetching (for the laws of 41_control_flow.md R109). -/
def execAll : List Instr → State → Result
  | [], s => .next s
  | i :: is, s =>
    match exec i s with
    | .next t => execAll is t
    | .fault f => .fault f
    | .refused r => .refused r

/-! ### What an instruction may write and raise -/

/-- The "writes" column of 10_state.md R21: `k` is a register that `i` writes. `LD Vx,K` writes at the Step that leaves AwaitingKey, not when it
is executed. -/
def writesReg : Instr → Reg → Prop
  | .cls, _ => False
  | .ret, _ => False
  | .sys _, _ => False
  | .jp _, _ => False
  | .call _, _ => False
  | .seByte _ _, _ => False
  | .sneByte _ _, _ => False
  | .seReg _ _, _ => False
  | .ldByte x _, k => k = x
  | .addByte x _, k => k = x
  | .ldReg x _, k => k = x
  | .orReg x _, k => k = x
  | .andReg x _, k => k = x
  | .xorReg x _, k => k = x
  | .addReg x _, k => k = x ∨ k = vf
  | .sub x _, k => k = x ∨ k = vf
  | .shr x _, k => k = x ∨ k = vf
  | .subn x _, k => k = x ∨ k = vf
  | .shl x _, k => k = x ∨ k = vf
  | .sneReg _ _, _ => False
  | .ldI _, _ => False
  | .jpV0 _, _ => False
  | .rnd x _, k => k = x
  | .drw _ _ _, k => k = vf
  | .skp _, _ => False
  | .sknp _, _ => False
  | .ldVxDt x, k => k = x
  | .ldVxK _, _ => False
  | .ldDtVx _, _ => False
  | .ldStVx _, _ => False
  | .addI _, _ => False
  | .ldF _, _ => False
  | .ldB _, _ => False
  | .storeRegs _, _ => False
  | .loadRegs x, k => k.val ≤ x.val

/-- The table of 60_exceptions.md R160, read by instruction: the error kinds an instruction can raise once it is fetched and decoded. -/
def mayRaise : Instr → Fault → Prop
  | .cls, f => f = .pcOutOfRange
  | .ret, f => f = .stackUnderflow
  | .sys _, f => f = .illegalInstruction
  | .jp _, f => f = .invalidJumpTarget
  | .call _, f => f = .invalidJumpTarget ∨ f = .stackOverflow ∨ f = .pcOutOfRange
  | .seByte _ _, f => f = .pcOutOfRange
  | .sneByte _ _, f => f = .pcOutOfRange
  | .seReg _ _, f => f = .pcOutOfRange
  | .ldByte _ _, f => f = .pcOutOfRange
  | .addByte _ _, f => f = .pcOutOfRange
  | .ldReg _ _, f => f = .pcOutOfRange
  | .orReg _ _, f => f = .pcOutOfRange
  | .andReg _ _, f => f = .pcOutOfRange
  | .xorReg _ _, f => f = .pcOutOfRange
  | .addReg _ _, f => f = .pcOutOfRange
  | .sub _ _, f => f = .pcOutOfRange
  | .shr _ _, f => f = .illegalInstruction ∨ f = .pcOutOfRange
  | .subn _ _, f => f = .pcOutOfRange
  | .shl _ _, f => f = .illegalInstruction ∨ f = .pcOutOfRange
  | .sneReg _ _, f => f = .pcOutOfRange
  | .ldI _, f => f = .pcOutOfRange
  | .jpV0 _, f => f = .invalidJumpTarget
  | .rnd _ _, f => f = .pcOutOfRange
  | .drw _ _ _, f => f = .addressOverflow ∨ f = .drawOutOfBounds ∨ f = .pcOutOfRange
  | .skp _, f => f = .invalidRegisterValue ∨ f = .pcOutOfRange
  | .sknp _, f => f = .invalidRegisterValue ∨ f = .pcOutOfRange
  | .ldVxDt _, f => f = .pcOutOfRange
  | .ldVxK _, f => f = .pcOutOfRange
  | .ldDtVx _, f => f = .pcOutOfRange
  | .ldStVx _, f => f = .pcOutOfRange
  | .addI _, f => f = .addressOverflow ∨ f = .pcOutOfRange
  | .ldF _, f => f = .invalidRegisterValue ∨ f = .pcOutOfRange
  | .ldB _, f => f = .addressOutOfRange ∨ f = .pcOutOfRange
  | .storeRegs _, f => f = .addressOutOfRange ∨ f = .pcOutOfRange
  | .loadRegs _, f => f = .addressOverflow ∨ f = .pcOutOfRange

/-! ### Sprites -/

/-- A sprite cell aimed at column `cx`, row `cy` lands on pixel (px, py): under WRAP each coordinate by itself, under CLIP and ERROR only where it
is aimed (44_display.md R143 to R145). -/
def LandsOn (e : DrawEdge) (cx cy px py : Nat) : Prop :=
  match e with
  | .wrap => cx % 64 = px ∧ cy % 32 = py
  | .clip => cx = px ∧ cy = py
  | .error => cx = px ∧ cy = py

/-- A set bit of the sprite that `DRW Vx,Vy,N` draws in `s` lands on pixel (px, py): row r is the byte at I + r, column c its bit 7 - c
(44_display.md R141, R142; bit order PRESUMED, log 11). -/
def Covers (s : State) (x y : Reg) (n : Fin 16) (px : Fin 64) (py : Fin 32) : Prop :=
  ∃ r c : Nat, r < n.val ∧ c < 8 ∧ (s.readByte (s.i.toNat + r)).getLsbD (7 - c) = true ∧
    LandsOn s.config.drawEdge ((s.reg x).toNat + c) ((s.reg y).toNat + r) px.val py.val

end Sys2Proof.Machine
end

