-- ==== Sys2Proof/Certificates/Slice0/Obligations.lean ====
section
/-! DEFINITION. The statements for the provers, in the order of spec/: encoding, cycle, control flow, arithmetic, index and memory, display,
keypad and timers, host operations, whole-machine rules. "log n" is notes/assumptions/n.md; where a statement rests on a decision the spec marks as its
own, or on a choice of the model, its docstring says so. -/

open Sys2Proof Sys2Proof.Machine

/-! ### Encoding -/

/-- Decoding the two bytes of a well-formed instruction, with any bytes after them, gives the instruction back and leaves those bytes (30_encoding.md
R70, R84). -/
def Obligations.DecodeOfEncodeIsIdentity : Prop :=
  ∀ (i : Instr) (rest : List Byte), i.wellFormed = true → decodeBytes (bytesOfWord (encode i) ++ rest) = .ok (i, rest)

/-- A word that decodes to an instruction decodes to a well-formed one whose encoding is that word: one word per instruction (30_encoding.md R84). -/
def Obligations.EncodeOfDecodeIsIdentity : Prop :=
  ∀ (w : Word) (i : Instr), decodeWord w = .ok i → i.wellFormed = true ∧ encode i = w

/-- The words that decode to no instruction, and the words that decode to `SYS`, are the ones 30_encoding.md R80 lists. The strictness is the spec's
decision D5 (log 27), the patterns general knowledge (log 10). -/
def Obligations.IllegalWordsAreTheListedOnes : Prop :=
  ∀ w : Word,
    let t := w.toNat / 0x1000
    let n := w.toNat % 0x10
    let nn := w.toNat % 0x100
    ((∃ e, decodeWord w = .error e) ↔
      (t = 0x5 ∧ n ≠ 0) ∨
      (t = 0x8 ∧ (n = 0x8 ∨ n = 0x9 ∨ n = 0xA ∨ n = 0xB ∨ n = 0xC ∨ n = 0xD ∨ n = 0xF)) ∨
      (t = 0x9 ∧ n ≠ 0) ∨
      (t = 0xE ∧ nn ≠ 0x9E ∧ nn ≠ 0xA1) ∨
      (t = 0xF ∧ nn ≠ 0x07 ∧ nn ≠ 0x0A ∧ nn ≠ 0x15 ∧ nn ≠ 0x18 ∧ nn ≠ 0x1E ∧ nn ≠ 0x29 ∧ nn ≠ 0x33 ∧ nn ≠ 0x55 ∧
        nn ≠ 0x65)) ∧
    ((∃ nnn, decodeWord w = .ok (.sys nnn)) ↔ t = 0 ∧ w ≠ 0x00E0#16 ∧ w ≠ 0x00EE#16)

/-- A word encodes an instruction of a row exactly when it matches the row's pattern under its mask, `SYS` excluding the two format-Z words
(30_encoding.md R76; patterns of 30 rows general knowledge, log 10). -/
def Obligations.OpcodeTableSelectsTheInstruction : Prop :=
  ∀ (w : Word) (i : Instr),
    (∃ j, decodeWord w = .ok j ∧ j.row = i.row) ↔
      w &&& i.row.mask = i.row.pattern ∧ (i.row.mnemonic = "SYS_addr" → w ≠ 0x00E0#16 ∧ w ≠ 0x00EE#16)

/-- The five words the source shows (30_encoding.md R77). -/
def Obligations.WordsShownBySourceDecode : Prop :=
  decodeWord 0x00E0#16 = .ok .cls ∧ decodeWord 0x00EE#16 = .ok .ret ∧ decodeWord 0x2300#16 = .ok (.call 0x300#12) ∧
  decodeWord 0x6A12#16 = .ok (.ldByte 0xA 0x12#8) ∧ decodeWord 0x7A05#16 = .ok (.addByte 0xA 0x05#8)

/-- The six overlapping fields of every word (30_encoding.md R71). -/
def Obligations.FieldsAreTheBitRanges : Prop :=
  ∀ w : Word,
    (fields w).type.val = w.toNat >>> 12 ∧ (fields w).x.val = (w.toNat >>> 8) &&& 0xF ∧
    (fields w).y.val = (w.toNat >>> 4) &&& 0xF ∧ (fields w).n.val = w.toNat &&& 0xF ∧
    (fields w).nn.toNat = w.toNat &&& 0xFF ∧ (fields w).nnn.toNat = w.toNat &&& 0xFFF ∧
    (fields w).nn.toNat = (fields w).y.val * 16 + (fields w).n.val ∧
    (fields w).nnn.toNat = (fields w).x.val * 256 + (fields w).y.val * 16 + (fields w).n.val

/-! ### The execution cycle -/

/-- In mode Running, when the two bytes at PC decode to an instruction, `Step` is the execution of that instruction (40_execution_cycle.md R90), and the
model's step is that `Step` when the host's schedule is empty or has it next (the model's choice, log 7). -/
def Obligations.StepRunsTheDecodedInstruction : Prop :=
  ∀ (s : State) (i : Instr), s.mode = .running → s.pc.toNat + 1 ≤ 0xFFF →
    decodeBytes [s.readByte s.pc.toNat, s.readByte (s.pc.toNat + 1)] = .ok (i, []) →
    operate .step s = exec i s ∧
    (s.schedule = [] → step s = exec i s) ∧
    (∀ rest, s.schedule = .step :: rest → step s = exec i { s with schedule := rest })

/-- The step of the machine is the operation next on the host's schedule, on the state without it (the model's choice, log 7). -/
def Obligations.StepPerformsTheScheduledOperation : Prop :=
  ∀ (s : State) (op : HostOp) (rest : List HostOp), s.schedule = op :: rest →
    step s = operate op { s with schedule := rest }

/-- The fetch is big-endian: the byte at the lower address holds bits 15:8 of the word (20_memory.md R54). -/
def Obligations.FetchIsBigEndian : Prop :=
  ∀ s : State, s.pc.toNat + 1 ≤ 0xFFF →
    ∃ w, fetchWord s = some w ∧
      w.toNat = (s.readByte s.pc.toNat).toNat <<< 8 ||| (s.readByte (s.pc.toNat + 1)).toNat ∧
      w.extractLsb' 8 8 = s.readByte s.pc.toNat ∧ w.extractLsb' 0 8 = s.readByte (s.pc.toNat + 1)

/-- A fetch whose second byte would lie above 0xFFF raises `PcOutOfRange` (40_execution_cycle.md R92; the spec's decision D1, log 12). -/
def Obligations.FetchPastTheEndRaises : Prop :=
  ∀ s : State, s.mode = .running → 0xFFF < s.pc.toNat + 1 → operate .step s = .fault .pcOutOfRange

/-- `SYS addr`, and a `Step` that fetches `SYS` or a word with no instruction, always raise `IllegalInstruction`, and the state stays as it was
(41_control_flow.md R100). -/
def Obligations.SysAndIllegalWordsRaise : Prop :=
  (∀ (nnn : Addr) (s : State), (Instr.sys nnn).format = .A ∧ exec (.sys nnn) s = .fault .illegalInstruction) ∧
  (∀ (s : State) (w : Word), s.mode = .running → fetchWord s = some w →
    ((∃ nnn, decodeWord w = .ok (.sys nnn)) ∨ (∃ e, decodeWord w = .error e)) →
    operate .step s = .fault .illegalInstruction ∧ stateAfter s (operate .step s) = s)

/-- A `Step` in mode AwaitingKey(t) fetches nothing and cannot fail: with a key pressed it writes the lowest pressed index to V[t], moves PC by 2 and
goes back to Running; with none it changes nothing (45_keypad_timers.md R154; the spec's decision D15, log 15). The premise on PC is 10_state.md R43 (e), the
invariant `StateInv.waiting`. -/
def Obligations.AwaitingKeyStepPolls : Prop :=
  ∀ (s : State) (t : Reg), s.mode = .awaitingKey t → s.pc.toNat + 2 ≤ 0xFFF →
    (∀ k : Reg, s.keys[k] = true → (∀ j : Reg, j < k → s.keys[j] = false) →
      operate .step s = .next
        { s with v := s.v.set t (BitVec.ofNat 8 k.val), pc := BitVec.ofNat 12 (s.pc.toNat + 2), mode := .running }) ∧
    ((∀ k : Reg, s.keys[k] = false) → operate .step s = .next s)

/-! ### Control flow -/

/-- `RET` on an empty stack raises `StackUnderflow`; otherwise PC becomes the top entry, SP falls by 1, and nothing else changes, the entry included
(41_control_flow.md R101). -/
def Obligations.RetPopsTheReturnAddress : Prop :=
  ∀ s : State, Instr.ret.format = .Z ∧
    (s.sp = 0 → exec .ret s = .fault .stackUnderflow) ∧
    (∀ k : Fin 16, s.sp = k.succ → exec .ret s = .next { s with pc := s.stack[k], sp := k.castSucc })

/-- `JP addr` and `JP V0,addr` set PC to their target, or raise `InvalidJumpTarget` when it lies outside 0x200 to 0xFFF; the sum with V0 is not reduced
before the check (41_control_flow.md R102, R108). -/
def Obligations.JumpsSetPcOrRaise : Prop :=
  ∀ (nnn : Addr) (s : State),
    ((Instr.jp nnn).format = .A ∧
      (nnn.toNat < 0x200 → exec (.jp nnn) s = .fault .invalidJumpTarget) ∧
      (0x200 ≤ nnn.toNat → exec (.jp nnn) s = .next { s with pc := nnn })) ∧
    ((Instr.jpV0 nnn).format = .A ∧
      ((s.reg 0).toNat + nnn.toNat < 0x200 ∨ 0xFFF < (s.reg 0).toNat + nnn.toNat →
        exec (.jpV0 nnn) s = .fault .invalidJumpTarget) ∧
      (0x200 ≤ (s.reg 0).toNat + nnn.toNat → (s.reg 0).toNat + nnn.toNat ≤ 0xFFF →
        exec (.jpV0 nnn) s = .next { s with pc := BitVec.ofNat 12 ((s.reg 0).toNat + nnn.toNat) }))

/-- `CALL` makes its three checks in the order target, depth, return address, then pushes the address after itself and jumps
(41_control_flow.md R103; the spec's decisions D1, D2, D4: log 12, 13, 18). -/
def Obligations.CallPushesTheReturnAddress : Prop :=
  ∀ (nnn : Addr) (s : State),
    (nnn.toNat < 0x200 → exec (.call nnn) s = .fault .invalidJumpTarget) ∧
    (0x200 ≤ nnn.toNat → s.sp.val = 16 → exec (.call nnn) s = .fault .stackOverflow) ∧
    (∀ k : Fin 16, 0x200 ≤ nnn.toNat → s.sp = k.castSucc → 0xFFF < s.pc.toNat + 2 →
      exec (.call nnn) s = .fault .pcOutOfRange) ∧
    (∀ k : Fin 16, 0x200 ≤ nnn.toNat → s.sp = k.castSucc → s.pc.toNat + 2 ≤ 0xFFF →
      exec (.call nnn) s = .next
        { s with stack := s.stack.set k (BitVec.ofNat 12 (s.pc.toNat + 2)), sp := k.succ, pc := nnn })

/-- After N calls have succeeded one inside the other, N returns succeed, restore SP, and end at the address after the first call; only the stack's
entries differ (41_control_flow.md R109; what an entry holds is the spec's decision D2, log 13). -/
def Obligations.NestedCallsReturn : Prop :=
  ∀ (targets : List Addr) (s t : State), execAll (targets.map .call) s = .next t →
    ∃ u, execAll (List.replicate targets.length .ret) t = .next u ∧
      u = { s with stack := u.stack, pc := u.pc } ∧
      (targets ≠ [] → u.pc.toNat = s.pc.toNat + 2) ∧
      (∀ k : Fin 16, k.val < s.sp.val → u.stack[k] = s.stack[k])

/-- The four skips move PC by 4 when their condition holds and by 2 otherwise, change nothing else, and raise `PcOutOfRange` when that leaves the
address space (41_control_flow.md R104 to R107; the last clause is the spec's decision D1, log 12). -/
def Obligations.SkipsMovePcByFourOrTwo : Prop :=
  ∀ (x y : Reg) (nn : Byte) (s : State) (i : Instr) (c : Prop) (k : Nat),
    (i = .seByte x nn ∧ (c ↔ s.reg x = nn)) ∨ (i = .sneByte x nn ∧ (c ↔ s.reg x ≠ nn)) ∨
      (i = .seReg x y ∧ (c ↔ s.reg x = s.reg y)) ∨ (i = .sneReg x y ∧ (c ↔ s.reg x ≠ s.reg y)) →
    (c ∧ k = 4 ∨ ¬c ∧ k = 2) →
    (s.pc.toNat + k ≤ 0xFFF → exec i s = .next { s with pc := BitVec.ofNat 12 (s.pc.toNat + k) }) ∧
    (0xFFF < s.pc.toNat + k → exec i s = .fault .pcOutOfRange)

/-! ### Registers and arithmetic -/

/-- `LD Vx,byte`, `LD Vx,Vy` and `LD Vx,DT` write V[X], move PC by 2 and change nothing else, at any PC whose `advance(2)` stays in
the address space; elsewhere `OnlyDirectUpdatesCompleteAtTheEnd` says what happens (42_register_alu.md R112, R114; 45_keypad_timers.md R152). -/
def Obligations.LoadsWriteOneRegister : Prop :=
  ∀ (x y : Reg) (nn : Byte) (s : State), s.pc.toNat + 2 ≤ 0xFFF →
    ((Instr.ldByte x nn).format = .I ∧
      exec (.ldByte x nn) s = .next { s with v := s.v.set x nn, pc := BitVec.ofNat 12 (s.pc.toNat + 2) }) ∧
    ((Instr.ldReg x y).format = .R ∧
      exec (.ldReg x y) s = .next { s with v := s.v.set x (s.reg y), pc := BitVec.ofNat 12 (s.pc.toNat + 2) }) ∧
    ((Instr.ldVxDt x).format = .U ∧
      exec (.ldVxDt x) s = .next { s with v := s.v.set x s.dt, pc := BitVec.ofNat 12 (s.pc.toNat + 2) })

/-- `ADD Vx,byte` writes the sum mod 256 and no flag, where `advance(2)` stays in the address space (42_register_alu.md R113). -/
def Obligations.AddByteWrapsWithoutFlag : Prop :=
  ∀ (x : Reg) (nn : Byte) (s : State), s.pc.toNat + 2 ≤ 0xFFF →
    (Instr.addByte x nn).format = .I ∧
    exec (.addByte x nn) s = .next
      { s with v := s.v.set x (BitVec.ofNat 8 (((s.reg x).toNat + nn.toNat) % 256)), pc := BitVec.ofNat 12 (s.pc.toNat + 2) }

/-- `OR`, `AND`, `XOR` write the bitwise result and no flag, where `advance(2)` stays in the address space (42_register_alu.md R115 to R117). -/
def Obligations.LogicWritesNoFlag : Prop :=
  ∀ (x y : Reg) (s : State), s.pc.toNat + 2 ≤ 0xFFF →
    ((Instr.orReg x y).format = .R ∧ exec (.orReg x y) s = .next
      { s with v := s.v.set x (s.reg x ||| s.reg y), pc := BitVec.ofNat 12 (s.pc.toNat + 2) }) ∧
    ((Instr.andReg x y).format = .R ∧ exec (.andReg x y) s = .next
      { s with v := s.v.set x (s.reg x &&& s.reg y), pc := BitVec.ofNat 12 (s.pc.toNat + 2) }) ∧
    ((Instr.xorReg x y).format = .R ∧ exec (.xorReg x y) s = .next
      { s with v := s.v.set x (s.reg x ^^^ s.reg y), pc := BitVec.ofNat 12 (s.pc.toNat + 2) })

/-- `ADD`, `SUB`, `SUBN` write the result mod 256 to V[X] and then the carry, or the strict comparison, to VF; with X = 15 the flag stands
(42_register_alu.md R119, R121, R122; the order of the two writes is the spec's decision D12, log 14). -/
def Obligations.AddAndSubtractWriteResultThenFlag : Prop :=
  ∀ (x y : Reg) (s : State), s.pc.toNat + 2 ≤ 0xFFF →
    let a := (s.reg x).toNat
    let b := (s.reg y).toNat
    exec (.addReg x y) s = .next
      { s with v := (s.v.set x (BitVec.ofNat 8 ((a + b) % 256))).set vf (if 256 ≤ a + b then 1#8 else 0#8),
               pc := BitVec.ofNat 12 (s.pc.toNat + 2) } ∧
    exec (.sub x y) s = .next
      { s with v := (s.v.set x (BitVec.ofNat 8 ((256 + a - b) % 256))).set vf (if b < a then 1#8 else 0#8),
               pc := BitVec.ofNat 12 (s.pc.toNat + 2) } ∧
    exec (.subn x y) s = .next
      { s with v := (s.v.set x (BitVec.ofNat 8 ((256 + b - a) % 256))).set vf (if a < b then 1#8 else 0#8),
               pc := BitVec.ofNat 12 (s.pc.toNat + 2) }

/-- `SHR` and `SHL` write the bit shifted out to VF and then the shifted value to V[X], ignoring Y; with X = 15 the shifted value stands; with
SHIFT_Y15_FAULT true a word with Y = 15 raises `IllegalInstruction` (42_register_alu.md R118, R120; decisions D12, D13: log 14, 4). -/
def Obligations.ShiftsWriteFlagThenResult : Prop :=
  ∀ (x y : Reg) (s : State),
    let a := (s.reg x).toNat
    (s.config.shiftY15Fault = true → y.val = 15 →
      exec (.shr x y) s = .fault .illegalInstruction ∧ exec (.shl x y) s = .fault .illegalInstruction) ∧
    (s.config.shiftY15Fault = false ∨ y.val ≠ 15 → s.pc.toNat + 2 ≤ 0xFFF →
      exec (.shr x y) s = .next
        { s with v := (s.v.set vf (BitVec.ofNat 8 (a % 2))).set x (BitVec.ofNat 8 (a / 2)),
                 pc := BitVec.ofNat 12 (s.pc.toNat + 2) } ∧
      exec (.shl x y) s = .next
        { s with v := (s.v.set vf (BitVec.ofNat 8 (a / 128))).set x (BitVec.ofNat 8 (a * 2 % 256)),
                 pc := BitVec.ofNat 12 (s.pc.toNat + 2) })

/-- `RND` writes the next random byte masked with NN and draws exactly one byte, whatever that byte is; a raise draws none (42_register_alu.md R123; the
free byte and the count of draws are the model's form, decision D16, log 5). -/
def Obligations.RndMasksOneFreshByte : Prop :=
  ∀ (x : Reg) (nn : Byte) (s : State),
    (s.pc.toNat + 2 ≤ 0xFFF → exec (.rnd x nn) s = .next
      { s with v := s.v.set x (Config.rndByte s.draws &&& nn), draws := s.draws + 1,
               pc := BitVec.ofNat 12 (s.pc.toNat + 2) }) ∧
    (0xFFF < s.pc.toNat + 2 → stateAfter s (exec (.rnd x nn) s) = s)

/-- At a PC from which PC + 2 leaves the address space nothing but `RET`, `JP addr` and `JP V0,addr` completes. The instructions without a check of
their own, the four register and byte skips among them, raise `PcOutOfRange`, and every other instruction that adds to PC or, as `CALL`, saves PC + 2 raises
it once its own checks pass (40_execution_cycle.md R95; 60_exceptions.md R169 (5); the spec's decisions D1 and D4, log 12, 18). -/
def Obligations.OnlyDirectUpdatesCompleteAtTheEnd : Prop :=
  ∀ (s : State), 0xFFF < s.pc.toNat + 2 →
    (∀ (i : Instr) (t : State), exec i s = .next t → i = .ret ∨ ∃ nnn, i = .jp nnn ∨ i = .jpV0 nnn) ∧
    (∀ (x y : Reg) (nn : Byte) (nnn : Addr),
      ∀ i ∈ [Instr.cls, .seByte x nn, .sneByte x nn, .seReg x y, .sneReg x y, .ldByte x nn, .addByte x nn, .ldReg x y,
        .orReg x y, .andReg x y, .xorReg x y, .addReg x y, .sub x y, .subn x y, .ldI nnn, .rnd x nn, .ldVxDt x, .ldVxK x,
        .ldDtVx x, .ldStVx x], exec i s = .fault .pcOutOfRange) ∧
    (∀ x y : Reg, s.config.shiftY15Fault = false ∨ y.val ≠ 15 →
      exec (.shr x y) s = .fault .pcOutOfRange ∧ exec (.shl x y) s = .fault .pcOutOfRange) ∧
    (∀ x : Reg, s.i.toNat + (s.reg x).toNat ≤ 0xFFF → exec (.addI x) s = .fault .pcOutOfRange) ∧
    (∀ x : Reg, (s.reg x).toNat ≤ 0xF →
      exec (.ldF x) s = .fault .pcOutOfRange ∧ exec (.skp x) s = .fault .pcOutOfRange ∧
      exec (.sknp x) s = .fault .pcOutOfRange) ∧
    (∀ x : Reg, 0x200 ≤ s.i.toNat → s.i.toNat + 2 ≤ 0xFFF → exec (.ldB x) s = .fault .pcOutOfRange) ∧
    (∀ x : Reg, 0x200 ≤ s.i.toNat → s.i.toNat + x.val ≤ 0xFFF → exec (.storeRegs x) s = .fault .pcOutOfRange) ∧
    (∀ x : Reg, s.i.toNat + x.val ≤ 0xFFF → exec (.loadRegs x) s = .fault .pcOutOfRange) ∧
    (∀ (x y : Reg) (n : Fin 16), (0 < n.val → s.i.toNat + n.val - 1 ≤ 0xFFF ∧
      (s.config.drawEdge = .error → (s.reg x).toNat + 7 ≤ 63 ∧ (s.reg y).toNat + n.val - 1 ≤ 31)) →
      exec (.drw x y n) s = .fault .pcOutOfRange) ∧
    (∀ nnn : Addr, 0x200 ≤ nnn.toNat → s.sp.val < 16 → exec (.call nnn) s = .fault .pcOutOfRange)

/-! ### Index register and memory -/

/-- `LD I,addr` sets I to NNN; `LD F,Vx` sets I to five times the digit in V[X] and raises `InvalidRegisterValue`, without masking, when V[X] is above 0xF; both
complete where `advance(2)` stays in the address space (43_index_memory.md R130, R132). -/
def Obligations.IndexLoadsSetI : Prop :=
  ∀ (nnn : Addr) (x : Reg) (s : State),
    ((Instr.ldI nnn).format = .A ∧
      (s.pc.toNat + 2 ≤ 0xFFF → exec (.ldI nnn) s = .next { s with i := nnn, pc := BitVec.ofNat 12 (s.pc.toNat + 2) })) ∧
    ((Instr.ldF x).format = .U ∧
      (0xF < (s.reg x).toNat → exec (.ldF x) s = .fault .invalidRegisterValue) ∧
      ((s.reg x).toNat ≤ 0xF → s.pc.toNat + 2 ≤ 0xFFF → exec (.ldF x) s = .next
        { s with i := BitVec.ofNat 12 (5 * (s.reg x).toNat), pc := BitVec.ofNat 12 (s.pc.toNat + 2) }))

/-- `ADD I,Vx` adds without wrap, raises `AddressOverflow` past 0xFFF, and leaves VF alone (43_index_memory.md R131; the last point is the spec's
decision D21, log 24). -/
def Obligations.AddIndexRaisesPastTheEnd : Prop :=
  ∀ (x : Reg) (s : State),
    (0xFFF < s.i.toNat + (s.reg x).toNat → exec (.addI x) s = .fault .addressOverflow) ∧
    (s.i.toNat + (s.reg x).toNat ≤ 0xFFF → s.pc.toNat + 2 ≤ 0xFFF → exec (.addI x) s = .next
      { s with i := BitVec.ofNat 12 (s.i.toNat + (s.reg x).toNat), pc := BitVec.ofNat 12 (s.pc.toNat + 2) })

/-- `LD B,Vx` stores the three decimal digits at I, I+1, I+2 and changes nothing else but PC, or raises `AddressOutOfRange` when one of the three lies outside
0x200 to 0xFFF; it completes where `advance(2)` stays in the address space (43_index_memory.md R133). -/
def Obligations.StoreDecimalWritesThreeDigits : Prop :=
  ∀ (x : Reg) (s : State), (Instr.ldB x).format = .U ∧
    (s.i.toNat < 0x200 ∨ 0xFFF < s.i.toNat + 2 → exec (.ldB x) s = .fault .addressOutOfRange) ∧
    (0x200 ≤ s.i.toNat → s.i.toNat + 2 ≤ 0xFFF → s.pc.toNat + 2 ≤ 0xFFF →
      ∃ t, exec (.ldB x) s = .next t ∧
        t = { s with mem := t.mem, pc := BitVec.ofNat 12 (s.pc.toNat + 2) } ∧
        (t.readByte s.i.toNat).toNat = (s.reg x).toNat / 100 ∧
        (t.readByte (s.i.toNat + 1)).toNat = (s.reg x).toNat / 10 % 10 ∧
        (t.readByte (s.i.toNat + 2)).toNat = (s.reg x).toNat % 10 ∧
        ∀ a, a < s.i.toNat ∨ s.i.toNat + 3 ≤ a → t.readByte a = s.readByte a)

/-- `LD [I],Vx` stores V[0] to V[X] at I to I+X and changes nothing else but PC, or raises `AddressOutOfRange` and stores nothing
(43_index_memory.md R134; that I stays is the spec's decision D14, log 23). -/
def Obligations.StoreRegistersWritesTheRange : Prop :=
  ∀ (x : Reg) (s : State),
    (s.i.toNat < 0x200 ∨ 0xFFF < s.i.toNat + x.val → exec (.storeRegs x) s = .fault .addressOutOfRange) ∧
    (0x200 ≤ s.i.toNat → s.i.toNat + x.val ≤ 0xFFF → s.pc.toNat + 2 ≤ 0xFFF →
      ∃ t, exec (.storeRegs x) s = .next t ∧
        t = { s with mem := t.mem, pc := BitVec.ofNat 12 (s.pc.toNat + 2) } ∧
        (∀ k : Reg, k ≤ x → t.readByte (s.i.toNat + k.val) = s.reg k) ∧
        ∀ a, a < s.i.toNat ∨ s.i.toNat + x.val < a → t.readByte a = s.readByte a)

/-- `LD Vx,[I]` loads V[0] to V[X] from I to I+X, reads from anywhere, and changes nothing else but PC, or raises `AddressOverflow` and writes no register
(43_index_memory.md R135; that I stays is the spec's decision D14, log 23). -/
def Obligations.LoadRegistersReadsTheRange : Prop :=
  ∀ (x : Reg) (s : State),
    (0xFFF < s.i.toNat + x.val → exec (.loadRegs x) s = .fault .addressOverflow) ∧
    (s.i.toNat + x.val ≤ 0xFFF → s.pc.toNat + 2 ≤ 0xFFF →
      ∃ t, exec (.loadRegs x) s = .next t ∧
        t = { s with v := t.v, pc := BitVec.ofNat 12 (s.pc.toNat + 2) } ∧
        ∀ k : Reg, t.reg k = if k ≤ x then s.readByte (s.i.toNat + k.val) else s.reg k)

/-- `LD [I],Vx` and then `LD Vx,[I]` with the same X leave every register and I as they were (43_index_memory.md R136 (b), the spec's derived law; it rests on
D14, log 23). -/
def Obligations.StoreThenLoadRestoresRegisters : Prop :=
  ∀ (x : Reg) (s : State), 0x200 ≤ s.i.toNat → s.i.toNat + x.val ≤ 0xFFF → s.pc.toNat + 4 ≤ 0xFFF →
    ∃ t u, exec (.storeRegs x) s = .next t ∧ exec (.loadRegs x) t = .next u ∧ u.v = s.v ∧ u.i = s.i ∧ u.mem = t.mem

/-- After `LD B,Vx` the three stored digits make up V[X] again, each a digit (43_index_memory.md R136 (c), the spec's derived law). -/
def Obligations.DecimalDigitsRecombine : Prop :=
  ∀ (x : Reg) (s t : State), exec (.ldB x) s = .next t →
    100 * (t.readByte t.i.toNat).toNat + 10 * (t.readByte (t.i.toNat + 1)).toNat + (t.readByte (t.i.toNat + 2)).toNat =
      (s.reg x).toNat ∧
    ∀ k, k < 3 → (t.readByte (t.i.toNat + k)).toNat ≤ 9

/-- No instruction writes below 0x200; only `LD B,Vx` and `LD [I],Vx` write memory at all, and both raise `AddressOutOfRange` unless every byte they would
write lies in 0x200 to 0xFFF (20_memory.md R52). -/
def Obligations.NoInstructionWritesBelowTheProgram : Prop :=
  ∀ s : State,
    (∀ (i : Instr) (t : State) (a : Nat), exec i s = .next t → a < 0x200 → t.readByte a = s.readByte a) ∧
    (∀ (i : Instr) (t : State), exec i s = .next t → (∀ x, i ≠ .ldB x ∧ i ≠ .storeRegs x) →
      t.mem = s.mem ∧ ∀ a, t.readByte a = s.readByte a) ∧
    (∀ x : Reg, ¬(∀ k, k ≤ 2 → 0x200 ≤ s.i.toNat + k ∧ s.i.toNat + k ≤ 0xFFF) →
      exec (.ldB x) s = .fault .addressOutOfRange) ∧
    (∀ x : Reg, ¬(∀ k, k ≤ x.val → 0x200 ≤ s.i.toNat + k ∧ s.i.toNat + k ≤ 0xFFF) →
      exec (.storeRegs x) s = .fault .addressOutOfRange)

/-- Stores are seen by the next fetch: after `LD [I],Vx` or `LD B,Vx` a fetch at any address reads, for each of its two bytes, the byte just stored there, and the
byte that was there before where none was stored (20_memory.md R55, R62, the spec's derived law). -/
def Obligations.StoresAreSeenByTheNextFetch : Prop :=
  ∀ (x : Reg) (s t : State) (a : Addr), a.toNat + 1 ≤ 0xFFF →
    (exec (.storeRegs x) s = .next t →
      let byteAt : Nat → Byte := fun b =>
        if s.i.toNat ≤ b ∧ b ≤ s.i.toNat + x.val then s.reg (Fin.ofNat 16 (b - s.i.toNat)) else s.readByte b
      fetchWord { t with pc := a } = some (byteAt a.toNat ++ byteAt (a.toNat + 1))) ∧
    (exec (.ldB x) s = .next t →
      let byteAt : Nat → Byte := fun b =>
        if b = s.i.toNat then BitVec.ofNat 8 ((s.reg x).toNat / 100)
        else if b = s.i.toNat + 1 then BitVec.ofNat 8 ((s.reg x).toNat / 10 % 10)
        else if b = s.i.toNat + 2 then BitVec.ofNat 8 ((s.reg x).toNat % 10)
        else s.readByte b
      fetchWord { t with pc := a } = some (byteAt a.toNat ++ byteAt (a.toNat + 1)))

/-! ### Display -/

/-- `CLS` clears every pixel, emits `DrawNotify` and changes nothing else but PC, VF included (44_display.md R140; the event as output is decision D24, the trace
that holds it log 6). -/
def Obligations.ClsClearsEveryPixel : Prop :=
  ∀ s : State, s.pc.toNat + 2 ≤ 0xFFF →
    ∃ t, exec .cls s = .next t ∧
      t = { s with fb := t.fb, events := s.events ++ [.drawNotify], pc := BitVec.ofNat 12 (s.pc.toNat + 2) } ∧
      ∀ x y, t.fb.pixel x y = false

/-- `DRW` flips exactly the pixels that a set sprite bit lands on, sets VF to 1 when one of them was set before and to 0 otherwise, emits `DrawNotify`, and
changes nothing else but PC, under every edge policy (44_display.md R142 to R145; decisions D8 to D11: log 3, 11, 26, 28). -/
def Obligations.DrawXorsTheSprite : Prop :=
  ∀ (x y : Reg) (n : Fin 16) (s : State),
    (0 < n.val → s.i.toNat + n.val - 1 ≤ 0xFFF) →
    (s.config.drawEdge = .error → 0 < n.val → (s.reg x).toNat + 7 ≤ 63 ∧ (s.reg y).toNat + n.val - 1 ≤ 31) →
    s.pc.toNat + 2 ≤ 0xFFF →
    ∃ t, exec (.drw x y n) s = .next t ∧
      t = { s with fb := t.fb, v := s.v.set vf (t.reg vf), events := s.events ++ [.drawNotify],
                   pc := BitVec.ofNat 12 (s.pc.toNat + 2) } ∧
      (∀ px py, Covers s x y n px py → t.fb.pixel px py = !(s.fb.pixel px py)) ∧
      (∀ px py, ¬Covers s x y n px py → t.fb.pixel px py = s.fb.pixel px py) ∧
      ((∃ px py, Covers s x y n px py ∧ s.fb.pixel px py = true) → t.reg vf = 1#8) ∧
      ((∀ px py, Covers s x y n px py → s.fb.pixel px py = false) → t.reg vf = 0#8)

/-- The errors of `DRW` in their order: the read past 0xFFF, the box outside the buffer under ERROR, the advance; with N = 0 neither of the first two
(44_display.md R142, R143; decisions D1, D4, D9, D10: log 12, 18, 3, 26). -/
def Obligations.DrawRaisesInOrder : Prop :=
  ∀ (x y : Reg) (n : Fin 16) (s : State),
    (0 < n.val → 0xFFF < s.i.toNat + n.val - 1 → exec (.drw x y n) s = .fault .addressOverflow) ∧
    (0 < n.val → s.i.toNat + n.val - 1 ≤ 0xFFF → s.config.drawEdge = .error →
      63 < (s.reg x).toNat + 7 ∨ 31 < (s.reg y).toNat + n.val - 1 → exec (.drw x y n) s = .fault .drawOutOfBounds) ∧
    ((0 < n.val → s.i.toNat + n.val - 1 ≤ 0xFFF ∧
        (s.config.drawEdge = .error → (s.reg x).toNat + 7 ≤ 63 ∧ (s.reg y).toNat + n.val - 1 ≤ 31)) →
      0xFFF < s.pc.toNat + 2 → exec (.drw x y n) s = .fault .pcOutOfRange)

/-- Drawing the same sprite bytes at the same place twice in a row succeeds and restores every pixel; the second draw reports a collision exactly when the first
left one of the sprite's pixels set, which on a clear buffer is when a set bit lands on the buffer at all; the first draw on a clear buffer reports none
(44_display.md R146 (a), (b), the spec's derived laws, under every policy; decisions D8 to D11: log 11, 3, 26, 28). The general VF clause follows R142: the words of R146 (b),
"exactly when the sprite has a set bit that lands on the buffer", are its case of a clear buffer. -/
def Obligations.DrawingTwiceRestoresTheBuffer : Prop :=
  ∀ (x y : Reg) (n : Fin 16) (s t u : State), exec (.drw x y n) s = .next t →
    u.fb = t.fb → u.reg x = s.reg x → u.reg y = s.reg y → u.i = s.i → u.config = s.config →
    (∀ a, u.readByte a = s.readByte a) → u.pc.toNat + 2 ≤ 0xFFF →
    ∃ w, exec (.drw x y n) u = .next w ∧ w.fb = s.fb ∧
      (w.reg vf = 1#8 ↔ ∃ px py, Covers s x y n px py ∧ t.fb.pixel px py = true) ∧
      ((∀ px py, s.fb.pixel px py = false) → t.reg vf = 0#8 ∧ (w.reg vf = 1#8 ↔ ∃ px py, Covers s x y n px py))

/-! ### Keypad and timers -/

/-- `SKP` and `SKNP` skip on the level of the key numbered V[X], and raise `InvalidRegisterValue`, before `PcOutOfRange` and without masking, when V[X] is above
0xF (45_keypad_timers.md R150, R151; the advance clause is decision D1, the order decision D4: log 12, 18). -/
def Obligations.KeySkipsFollowTheKeyLevel : Prop :=
  ∀ (x : Reg) (s : State),
    (0xF < (s.reg x).toNat →
      exec (.skp x) s = .fault .invalidRegisterValue ∧ exec (.sknp x) s = .fault .invalidRegisterValue) ∧
    (∀ (key : Reg) (i : Instr) (k : Nat), (s.reg x).toNat = key.val →
      (i = .skp x ∧ k = (if s.keys[key] = true then 4 else 2)) ∨ (i = .sknp x ∧ k = (if s.keys[key] = true then 2 else 4)) →
      (s.pc.toNat + k ≤ 0xFFF → exec i s = .next { s with pc := BitVec.ofNat 12 (s.pc.toNat + k) }) ∧
      (0xFFF < s.pc.toNat + k → exec i s = .fault .pcOutOfRange))

/-- `LD DT,Vx` sets the delay timer and changes nothing else but PC, where `advance(2)` stays in the address space (45_keypad_timers.md R155). -/
def Obligations.DelayTimerIsSet : Prop :=
  ∀ (x : Reg) (s : State), s.pc.toNat + 2 ≤ 0xFFF →
    (Instr.ldDtVx x).format = .U ∧
    exec (.ldDtVx x) s = .next { s with dt := s.reg x, pc := BitVec.ofNat 12 (s.pc.toNat + 2) }

/-- `LD ST,Vx` sets the sound timer and emits the edge it makes, if any (45_keypad_timers.md R156; the edges are decision D17, log 16, the trace of events
log 6). -/
def Obligations.SoundTimerIsSetWithItsEdge : Prop :=
  ∀ (x : Reg) (s : State) (es : List Event), s.pc.toNat + 2 ≤ 0xFFF →
    (s.st = 0#8 ∧ s.reg x ≠ 0#8 ∧ es = [.soundOn]) ∨ (s.st ≠ 0#8 ∧ s.reg x = 0#8 ∧ es = [.soundOff]) ∨
      ((s.st = 0#8 ↔ s.reg x = 0#8) ∧ es = []) →
    exec (.ldStVx x) s = .next
      { s with st := s.reg x, events := s.events ++ es, pc := BitVec.ofNat 12 (s.pc.toNat + 2) }

/-- `LD Vx,K` only enters AwaitingKey(X): PC, the registers and the keys stay, a key already down is not sampled; at the end of memory it raises
`PcOutOfRange` (45_keypad_timers.md R153; decisions D1, D15: log 12, 15). -/
def Obligations.KeyWaitIsEntered : Prop :=
  ∀ (x : Reg) (s : State),
    (s.pc.toNat + 2 ≤ 0xFFF → exec (.ldVxK x) s = .next { s with mode := .awaitingKey x }) ∧
    (0xFFF < s.pc.toNat + 2 → exec (.ldVxK x) s = .fault .pcOutOfRange)

/-- `Tick` decrements DT and ST while non-zero, emits `SoundOff` when ST reaches zero, writes nothing else, never fails and acts the same in either mode
(60_exceptions.md R174). -/
def Obligations.TickDecrementsTheTimers : Prop :=
  ∀ s : State, operate .tick s = .next
    { s with dt := BitVec.ofNat 8 (s.dt.toNat - 1), st := BitVec.ofNat 8 (s.st.toNat - 1),
             events := s.events ++ (if s.st = 1#8 then [.soundOff] else []) }

/-- After n ticks a timer that held m holds m - n, stopping at zero: a timer loaded with n reaches zero after exactly n ticks, and the sound ends once
(60_exceptions.md R175). The ticks are placed on the host's schedule, which is the model's form (log 7). -/
def Obligations.TimersRunDownTickByTick : Prop :=
  ∀ (n : Nat) (s : State), ∃ t, Sys2Proof.core.run n { s with schedule := List.replicate n .tick } = .next t ∧
    t = { s with dt := BitVec.ofNat 8 (s.dt.toNat - n), st := BitVec.ofNat 8 (s.st.toNat - n), schedule := [],
                 events := s.events ++ (if s.st ≠ 0#8 ∧ s.st.toNat ≤ n then [.soundOff] else []) }

/-! ### Host operations -/

/-- `SetKeys` replaces all sixteen keys and nothing else, in either mode (60_exceptions.md R180; decision D27, log 31). -/
def Obligations.SetKeysReplacesTheKeypad : Prop :=
  ∀ (k : Keys) (s : State), operate (.setKeys k) s = .next { s with keys := k }

/-- `LoadProgram` accepts at most 3584 bytes, puts them at 0x200, zeroes the rest of the program region, asserts the glyph table again, latches the program, and
leaves everything else alone; a longer one is refused (70_reset_and_hazards.md R204; decision D18, log 9, 17). -/
def Obligations.LoadProgramFillsTheProgramRegion : Prop :=
  ∀ (bytes : List Byte) (s : State),
    (3584 < bytes.length → operate (.loadProgram bytes) s = .refused .programTooLarge) ∧
    (bytes.length ≤ 3584 → ∃ t, operate (.loadProgram bytes) s = .next t ∧
      t = { s with mem := t.mem, img := bytes } ∧
      (∀ a, (h : a < 80) → t.readByte a = s.config.glyphs[a]) ∧
      (∀ a, 0x050 ≤ a → a < 0x200 → t.readByte a = s.readByte a) ∧
      (∀ k, (h : k < bytes.length) → t.readByte (0x200 + k) = bytes[k]) ∧
      (∀ a, 0x200 + bytes.length ≤ a → t.readByte a = 0#8))

/-- `Reset` gives every entity its reset value, restores the latched program, and emits `SoundOff` when a sound was on; it keeps IMG and, as the model's choice,
the parameters, the draws, the events so far and the schedule (70_reset_and_hazards.md R200; decision D18, log 17; the `SoundOff` of Reset is
the spec's decision D17, log 16; what Reset keeps beside IMG is log 1, 5, 6, 7). -/
def Obligations.ResetRestoresTheInitialState : Prop :=
  ∀ s : State, s.img.length ≤ 3584 → ∃ t, operate .reset s = .next t ∧
    (∀ x, t.reg x = 0#8) ∧ t.i = 0#12 ∧ t.pc = 0x200#12 ∧ t.sp = 0 ∧ (∀ k : Fin 16, t.stack[k] = 0#12) ∧
    t.dt = 0#8 ∧ t.st = 0#8 ∧ t.mode = .running ∧ (∀ k : Reg, t.keys[k] = false) ∧ (∀ x y, t.fb.pixel x y = false) ∧
    (∀ a, (h : a < 80) → t.readByte a = s.config.glyphs[a]) ∧
    (∀ a, 0x050 ≤ a → a < 0x200 → t.readByte a = 0#8) ∧
    (∀ k, (h : k < s.img.length) → t.readByte (0x200 + k) = s.img[k]) ∧
    (∀ a, 0x200 + s.img.length ≤ a → t.readByte a = 0#8) ∧
    t.img = s.img ∧ t.config = s.config ∧ t.draws = s.draws ∧ t.schedule = s.schedule ∧
    t.events = s.events ++ (if s.st = 0#8 then [] else [.soundOff])

/-- `Reset` twice leaves the same state as once, and the second emits nothing (70_reset_and_hazards.md R202, the spec's derived law; decisions
D17, D18, log 16, 17; the trace of events log 6). -/
def Obligations.ResetIsIdempotent : Prop :=
  ∀ s t : State, operate .reset s = .next t → operate .reset t = .next t

/-- After reset every general register holds 0, at power-on and after the `Reset` operation (10_state.md R22). -/
def Obligations.RegistersAreZeroAfterReset : Prop :=
  (∀ x : Reg, State.reset.reg x = 0#8) ∧ ∀ (s t : State) (x : Reg), operate .reset s = .next t → t.reg x = 0#8

/-- The launch state of a program: power-on, `LoadProgram`, and an optional `Reset` that changes nothing (70_reset_and_hazards.md R205, the spec's derived rule;
decision D18, log 17; the default parameters are log 1 to 4). -/
def Obligations.LaunchStateHoldsTheProgram : Prop :=
  ∀ rom : List Byte, rom.length ≤ 3584 → ∃ t, operate (.loadProgram rom) State.reset = .next t ∧
    operate .reset t = .next t ∧
    t = { State.reset with mem := t.mem, img := rom } ∧ t.pc = 0x200#12 ∧ t.mode = .running ∧
    (∀ a, (h : a < 80) → t.readByte a = State.reset.config.glyphs[a]) ∧
    (∀ a, 0x050 ≤ a → a < 0x200 → t.readByte a = 0#8) ∧
    (∀ k, (h : k < rom.length) → t.readByte (0x200 + k) = rom[k]) ∧
    (∀ a, 0x200 + rom.length ≤ a → t.readByte a = 0#8)

/-! ### Whole-machine rules -/

/-- The invariant of 10_state.md R43, with the canonical form of memory and the length of IMG, holds at power-on. -/
def Obligations.InvHoldsAtPowerOn : Prop := StateInv State.reset

/-- From every state that meets the invariant, every step of the machine, whatever operation the host issues, gives a state that meets it (10_state.md R43; the
canonical form is log 20, the schedule that names the operation log 7). -/
def Obligations.EveryStepKeepsInv : Prop :=
  ∀ s t : State, StateInv s → step s = .next t → StateInv t

/-- A state at rest is left as it is by every `Step` (70_reset_and_hazards.md R208; the notion is the spec's decision D25). That the model's step
then leaves it too when the schedule is empty is the model's choice, an empty schedule meaning `Step` (log 7). The premise on PC is `StateInv.pcLow`. -/
def Obligations.RestIsAFixedPoint : Prop :=
  ∀ s : State, AtRest s → 0x200 ≤ s.pc.toNat → operate .step s = .next s ∧ (s.schedule = [] → step s = .next s)

/-- A general register changes only where 10_state.md R21 lists the instruction as writing it. -/
def Obligations.OnlyListedRegistersChange : Prop :=
  ∀ (i : Instr) (s t : State) (k : Reg), exec i s = .next t → ¬writesReg i k → t.reg k = s.reg k

/-- Each of the other pieces of state is changed only by the instructions the spec names for it: I (10_state.md R25), the stack and SP (R26, R27), DT (R28), ST (R29), MODE
(R30), FB (R33), the events (R41), the random bytes (R40); the keys (R32), IMG (R39), the parameters and the schedule (R45) by none. -/
def Obligations.OnlyNamedInstructionsChangeState : Prop :=
  ∀ (i : Instr) (s t : State), exec i s = .next t →
    (t.i ≠ s.i → (∃ nnn, i = .ldI nnn) ∨ ∃ x, i = .addI x ∨ i = .ldF x) ∧
    (t.stack ≠ s.stack → ∃ nnn, i = .call nnn) ∧
    (t.sp ≠ s.sp → i = .ret ∨ ∃ nnn, i = .call nnn) ∧
    (t.dt ≠ s.dt → ∃ x, i = .ldDtVx x) ∧
    (t.st ≠ s.st → ∃ x, i = .ldStVx x) ∧
    (t.mode ≠ s.mode → ∃ x, i = .ldVxK x) ∧
    (t.fb ≠ s.fb → i = .cls ∨ ∃ x y n, i = .drw x y n) ∧
    (t.events ≠ s.events → i = .cls ∨ (∃ x y n, i = .drw x y n) ∨ ∃ x, i = .ldStVx x) ∧
    (t.draws ≠ s.draws → ∃ x nn, i = .rnd x nn) ∧
    t.keys = s.keys ∧ t.img = s.img ∧ t.config = s.config ∧ t.schedule = s.schedule

/-- An instruction raises only the error kinds 60_exceptions.md R160 lists for it, and none is refused (two of the kinds are the spec's decisions D1 and D9; the fault
as the end of the run is log 8). -/
def Obligations.InstructionsRaiseOnlyListedErrors : Prop :=
  ∀ (i : Instr) (s : State),
    (∀ f, exec i s = .fault f → mayRaise i f) ∧ (∀ r, exec i s ≠ .refused r)

/-- Every operation emits `SoundOn` exactly when it takes ST from zero to non-zero and `SoundOff` exactly when it takes it from non-zero to zero, only `Step` emits
`DrawNotify`, and the events already emitted stay (10_state.md R41, R42; decision D17, log 16; the trace is log 6). -/
def Obligations.SoundEdgesFollowTheSoundTimer : Prop :=
  ∀ (op : HostOp) (s t : State), operate op s = .next t →
    ∃ es, t.events = s.events ++ es ∧
      (.soundOn ∈ es ↔ s.st = 0#8 ∧ t.st ≠ 0#8) ∧ (.soundOff ∈ es ↔ s.st ≠ 0#8 ∧ t.st = 0#8) ∧
      (.drawNotify ∈ es → op = .step)

/-- An instruction other than `SKP` and `SKNP` neither reads nor writes the keys: on any other key state it does the same (40_execution_cycle.md R96; 10_state.md
R32). -/
def Obligations.OnlyKeySkipsDependOnTheKeys : Prop :=
  ∀ (i : Instr) (s : State) (k : Keys), (∀ x, i ≠ .skp x ∧ i ≠ .sknp x) →
    (∀ t, exec i s = .next t → exec i { s with keys := k } = .next { t with keys := k }) ∧
    (∀ f, exec i s = .fault f → exec i { s with keys := k } = .fault f)

/-- An instruction other than `LD Vx,DT` and `LD DT,Vx` neither reads nor writes DT, so the host's ticks cannot change what it does otherwise
(10_state.md R28; 40_execution_cycle.md R96). -/
def Obligations.OnlyTimerInstructionsDependOnDt : Prop :=
  ∀ (i : Instr) (s : State) (d : Byte), (∀ x, i ≠ .ldVxDt x ∧ i ≠ .ldDtVx x) →
    (∀ t, exec i s = .next t → exec i { s with dt := d } = .next { t with dt := d }) ∧
    (∀ f, exec i s = .fault f → exec i { s with dt := d } = .fault f)
end

