-- ==== Sys2Proof/Laws/Decode.lean ====
section
/-! SUPPORT. The small lemmas of words, bytes and fields. -/

namespace Sys2Proof

theorem toNat_wordOfBytes (hi lo : Byte) : (wordOfBytes hi lo).toNat = hi.toNat * 256 + lo.toNat := by
  have h : (wordOfBytes hi lo).toNat = hi.toNat <<< 8 ||| lo.toNat := BitVec.toNat_append hi lo
  rw [h, ← Nat.shiftLeft_add_eq_or_of_lt lo.isLt, Nat.shiftLeft_eq]

theorem toNat_highByte (w : Word) : (highByte w).toNat = w.toNat / 256 := by
  have := w.isLt
  simp only [highByte, BitVec.extractLsb'_toNat, Nat.shiftRight_eq_div_pow]
  omega

theorem toNat_lowByte (w : Word) : (lowByte w).toNat = w.toNat % 256 := by
  simp [lowByte, BitVec.extractLsb'_toNat]

@[simp] theorem highByte_wordOfBytes (hi lo : Byte) : highByte (wordOfBytes hi lo) = hi := by
  apply BitVec.eq_of_toNat_eq
  rw [toNat_highByte, toNat_wordOfBytes]
  have := lo.isLt
  omega

@[simp] theorem lowByte_wordOfBytes (hi lo : Byte) : lowByte (wordOfBytes hi lo) = lo := by
  apply BitVec.eq_of_toNat_eq
  rw [toNat_lowByte, toNat_wordOfBytes]
  have := lo.isLt
  omega

@[simp] theorem wordOfBytes_bytes (w : Word) : wordOfBytes (highByte w) (lowByte w) = w := by
  apply BitVec.eq_of_toNat_eq
  rw [toNat_wordOfBytes, toNat_highByte, toNat_lowByte]
  omega

@[simp] theorem fields_type (w : Word) : (fields w).type.val = w.toNat / 0x1000 % 16 := rfl

@[simp] theorem fields_x (w : Word) : (fields w).x.val = w.toNat / 0x100 % 16 := rfl

@[simp] theorem fields_y (w : Word) : (fields w).y.val = w.toNat / 0x10 % 16 := rfl

@[simp] theorem fields_n (w : Word) : (fields w).n.val = w.toNat % 16 := by
  simp [fields, nibble]

@[simp] theorem fields_nn (w : Word) : (fields w).nn.toNat = w.toNat % 256 := by
  simp [fields]

@[simp] theorem fields_nnn (w : Word) : (fields w).nnn.toNat = w.toNat % 4096 := by
  simp [fields]

/-- Decoding a word's two bytes reads that word and leaves the rest. -/
theorem decodeBytes_of_word (w : Word) (rest : List Byte) :
    decodeBytes (bytesOfWord w ++ rest) = match decodeWord w with
      | .ok i => .ok (i, rest)
      | .error e => .error e := by
  cases h : decodeWord w <;> simp [bytesOfWord, decodeBytes, h]

end Sys2Proof
end

