-- ==== Sys2Proof/Laws/State.lean ====
section
/-! SUPPORT. One lemma per field of State and update, true by rfl, so that no proof unfolds a record update; and the same for the readers
`reg`, `readByte` and `memWf`. -/

namespace Sys2Proof.Machine

variable (s : State)

/-! ### setMem -/

@[simp] theorem State.setMem_v (m : Memory) : (s.setMem m).v = s.v := rfl
@[simp] theorem State.setMem_i (m : Memory) : (s.setMem m).i = s.i := rfl
@[simp] theorem State.setMem_pc (m : Memory) : (s.setMem m).pc = s.pc := rfl
@[simp] theorem State.setMem_sp (m : Memory) : (s.setMem m).sp = s.sp := rfl
@[simp] theorem State.setMem_stack (m : Memory) : (s.setMem m).stack = s.stack := rfl
@[simp] theorem State.setMem_dt (m : Memory) : (s.setMem m).dt = s.dt := rfl
@[simp] theorem State.setMem_st (m : Memory) : (s.setMem m).st = s.st := rfl
@[simp] theorem State.setMem_mode (m : Memory) : (s.setMem m).mode = s.mode := rfl
@[simp] theorem State.setMem_keys (m : Memory) : (s.setMem m).keys = s.keys := rfl
@[simp] theorem State.setMem_fb (m : Memory) : (s.setMem m).fb = s.fb := rfl
@[simp] theorem State.setMem_mem (m : Memory) : (s.setMem m).mem = m := rfl
@[simp] theorem State.setMem_img (m : Memory) : (s.setMem m).img = s.img := rfl
@[simp] theorem State.setMem_config (m : Memory) : (s.setMem m).config = s.config := rfl
@[simp] theorem State.setMem_draws (m : Memory) : (s.setMem m).draws = s.draws := rfl
@[simp] theorem State.setMem_events (m : Memory) : (s.setMem m).events = s.events := rfl
@[simp] theorem State.setMem_schedule (m : Memory) : (s.setMem m).schedule = s.schedule := rfl
@[simp] theorem State.setMem_reg (m : Memory) (y : Reg) : (s.setMem m).reg y = s.reg y := rfl

/-! ### setReg -/

@[simp] theorem State.setReg_v (x : Reg) (b : Byte) : (s.setReg x b).v = s.v.set x b := rfl
@[simp] theorem State.setReg_i (x : Reg) (b : Byte) : (s.setReg x b).i = s.i := rfl
@[simp] theorem State.setReg_pc (x : Reg) (b : Byte) : (s.setReg x b).pc = s.pc := rfl
@[simp] theorem State.setReg_sp (x : Reg) (b : Byte) : (s.setReg x b).sp = s.sp := rfl
@[simp] theorem State.setReg_stack (x : Reg) (b : Byte) : (s.setReg x b).stack = s.stack := rfl
@[simp] theorem State.setReg_dt (x : Reg) (b : Byte) : (s.setReg x b).dt = s.dt := rfl
@[simp] theorem State.setReg_st (x : Reg) (b : Byte) : (s.setReg x b).st = s.st := rfl
@[simp] theorem State.setReg_mode (x : Reg) (b : Byte) : (s.setReg x b).mode = s.mode := rfl
@[simp] theorem State.setReg_keys (x : Reg) (b : Byte) : (s.setReg x b).keys = s.keys := rfl
@[simp] theorem State.setReg_fb (x : Reg) (b : Byte) : (s.setReg x b).fb = s.fb := rfl
@[simp] theorem State.setReg_mem (x : Reg) (b : Byte) : (s.setReg x b).mem = s.mem := rfl
@[simp] theorem State.setReg_img (x : Reg) (b : Byte) : (s.setReg x b).img = s.img := rfl
@[simp] theorem State.setReg_config (x : Reg) (b : Byte) : (s.setReg x b).config = s.config := rfl
@[simp] theorem State.setReg_draws (x : Reg) (b : Byte) : (s.setReg x b).draws = s.draws := rfl
@[simp] theorem State.setReg_events (x : Reg) (b : Byte) : (s.setReg x b).events = s.events := rfl
@[simp] theorem State.setReg_schedule (x : Reg) (b : Byte) : (s.setReg x b).schedule = s.schedule := rfl
@[simp] theorem State.setReg_readByte (x : Reg) (b : Byte) (c : Nat) : (s.setReg x b).readByte c = s.readByte c := rfl
@[simp] theorem State.setReg_memWf (x : Reg) (b : Byte) : (s.setReg x b).memWf = s.memWf := rfl

/-! ### setV -/

@[simp] theorem State.setV_v (w : Vector Byte 16) : (s.setV w).v = w := rfl
@[simp] theorem State.setV_i (w : Vector Byte 16) : (s.setV w).i = s.i := rfl
@[simp] theorem State.setV_pc (w : Vector Byte 16) : (s.setV w).pc = s.pc := rfl
@[simp] theorem State.setV_sp (w : Vector Byte 16) : (s.setV w).sp = s.sp := rfl
@[simp] theorem State.setV_stack (w : Vector Byte 16) : (s.setV w).stack = s.stack := rfl
@[simp] theorem State.setV_dt (w : Vector Byte 16) : (s.setV w).dt = s.dt := rfl
@[simp] theorem State.setV_st (w : Vector Byte 16) : (s.setV w).st = s.st := rfl
@[simp] theorem State.setV_mode (w : Vector Byte 16) : (s.setV w).mode = s.mode := rfl
@[simp] theorem State.setV_keys (w : Vector Byte 16) : (s.setV w).keys = s.keys := rfl
@[simp] theorem State.setV_fb (w : Vector Byte 16) : (s.setV w).fb = s.fb := rfl
@[simp] theorem State.setV_mem (w : Vector Byte 16) : (s.setV w).mem = s.mem := rfl
@[simp] theorem State.setV_img (w : Vector Byte 16) : (s.setV w).img = s.img := rfl
@[simp] theorem State.setV_config (w : Vector Byte 16) : (s.setV w).config = s.config := rfl
@[simp] theorem State.setV_draws (w : Vector Byte 16) : (s.setV w).draws = s.draws := rfl
@[simp] theorem State.setV_events (w : Vector Byte 16) : (s.setV w).events = s.events := rfl
@[simp] theorem State.setV_schedule (w : Vector Byte 16) : (s.setV w).schedule = s.schedule := rfl
@[simp] theorem State.setV_readByte (w : Vector Byte 16) (c : Nat) : (s.setV w).readByte c = s.readByte c := rfl
@[simp] theorem State.setV_memWf (w : Vector Byte 16) : (s.setV w).memWf = s.memWf := rfl

/-! ### setI -/

@[simp] theorem State.setI_v (a : Addr) : (s.setI a).v = s.v := rfl
@[simp] theorem State.setI_i (a : Addr) : (s.setI a).i = a := rfl
@[simp] theorem State.setI_pc (a : Addr) : (s.setI a).pc = s.pc := rfl
@[simp] theorem State.setI_sp (a : Addr) : (s.setI a).sp = s.sp := rfl
@[simp] theorem State.setI_stack (a : Addr) : (s.setI a).stack = s.stack := rfl
@[simp] theorem State.setI_dt (a : Addr) : (s.setI a).dt = s.dt := rfl
@[simp] theorem State.setI_st (a : Addr) : (s.setI a).st = s.st := rfl
@[simp] theorem State.setI_mode (a : Addr) : (s.setI a).mode = s.mode := rfl
@[simp] theorem State.setI_keys (a : Addr) : (s.setI a).keys = s.keys := rfl
@[simp] theorem State.setI_fb (a : Addr) : (s.setI a).fb = s.fb := rfl
@[simp] theorem State.setI_mem (a : Addr) : (s.setI a).mem = s.mem := rfl
@[simp] theorem State.setI_img (a : Addr) : (s.setI a).img = s.img := rfl
@[simp] theorem State.setI_config (a : Addr) : (s.setI a).config = s.config := rfl
@[simp] theorem State.setI_draws (a : Addr) : (s.setI a).draws = s.draws := rfl
@[simp] theorem State.setI_events (a : Addr) : (s.setI a).events = s.events := rfl
@[simp] theorem State.setI_schedule (a : Addr) : (s.setI a).schedule = s.schedule := rfl
@[simp] theorem State.setI_reg (a : Addr) (y : Reg) : (s.setI a).reg y = s.reg y := rfl
@[simp] theorem State.setI_readByte (a : Addr) (c : Nat) : (s.setI a).readByte c = s.readByte c := rfl
@[simp] theorem State.setI_memWf (a : Addr) : (s.setI a).memWf = s.memWf := rfl

/-! ### setPc -/

@[simp] theorem State.setPc_v (a : Addr) : (s.setPc a).v = s.v := rfl
@[simp] theorem State.setPc_i (a : Addr) : (s.setPc a).i = s.i := rfl
@[simp] theorem State.setPc_pc (a : Addr) : (s.setPc a).pc = a := rfl
@[simp] theorem State.setPc_sp (a : Addr) : (s.setPc a).sp = s.sp := rfl
@[simp] theorem State.setPc_stack (a : Addr) : (s.setPc a).stack = s.stack := rfl
@[simp] theorem State.setPc_dt (a : Addr) : (s.setPc a).dt = s.dt := rfl
@[simp] theorem State.setPc_st (a : Addr) : (s.setPc a).st = s.st := rfl
@[simp] theorem State.setPc_mode (a : Addr) : (s.setPc a).mode = s.mode := rfl
@[simp] theorem State.setPc_keys (a : Addr) : (s.setPc a).keys = s.keys := rfl
@[simp] theorem State.setPc_fb (a : Addr) : (s.setPc a).fb = s.fb := rfl
@[simp] theorem State.setPc_mem (a : Addr) : (s.setPc a).mem = s.mem := rfl
@[simp] theorem State.setPc_img (a : Addr) : (s.setPc a).img = s.img := rfl
@[simp] theorem State.setPc_config (a : Addr) : (s.setPc a).config = s.config := rfl
@[simp] theorem State.setPc_draws (a : Addr) : (s.setPc a).draws = s.draws := rfl
@[simp] theorem State.setPc_events (a : Addr) : (s.setPc a).events = s.events := rfl
@[simp] theorem State.setPc_schedule (a : Addr) : (s.setPc a).schedule = s.schedule := rfl
@[simp] theorem State.setPc_reg (a : Addr) (y : Reg) : (s.setPc a).reg y = s.reg y := rfl
@[simp] theorem State.setPc_readByte (a : Addr) (c : Nat) : (s.setPc a).readByte c = s.readByte c := rfl
@[simp] theorem State.setPc_memWf (a : Addr) : (s.setPc a).memWf = s.memWf := rfl

/-! ### setDt -/

@[simp] theorem State.setDt_v (b : Byte) : (s.setDt b).v = s.v := rfl
@[simp] theorem State.setDt_i (b : Byte) : (s.setDt b).i = s.i := rfl
@[simp] theorem State.setDt_pc (b : Byte) : (s.setDt b).pc = s.pc := rfl
@[simp] theorem State.setDt_sp (b : Byte) : (s.setDt b).sp = s.sp := rfl
@[simp] theorem State.setDt_stack (b : Byte) : (s.setDt b).stack = s.stack := rfl
@[simp] theorem State.setDt_dt (b : Byte) : (s.setDt b).dt = b := rfl
@[simp] theorem State.setDt_st (b : Byte) : (s.setDt b).st = s.st := rfl
@[simp] theorem State.setDt_mode (b : Byte) : (s.setDt b).mode = s.mode := rfl
@[simp] theorem State.setDt_keys (b : Byte) : (s.setDt b).keys = s.keys := rfl
@[simp] theorem State.setDt_fb (b : Byte) : (s.setDt b).fb = s.fb := rfl
@[simp] theorem State.setDt_mem (b : Byte) : (s.setDt b).mem = s.mem := rfl
@[simp] theorem State.setDt_img (b : Byte) : (s.setDt b).img = s.img := rfl
@[simp] theorem State.setDt_config (b : Byte) : (s.setDt b).config = s.config := rfl
@[simp] theorem State.setDt_draws (b : Byte) : (s.setDt b).draws = s.draws := rfl
@[simp] theorem State.setDt_events (b : Byte) : (s.setDt b).events = s.events := rfl
@[simp] theorem State.setDt_schedule (b : Byte) : (s.setDt b).schedule = s.schedule := rfl
@[simp] theorem State.setDt_reg (b : Byte) (y : Reg) : (s.setDt b).reg y = s.reg y := rfl
@[simp] theorem State.setDt_readByte (b : Byte) (c : Nat) : (s.setDt b).readByte c = s.readByte c := rfl
@[simp] theorem State.setDt_memWf (b : Byte) : (s.setDt b).memWf = s.memWf := rfl

/-! ### setMode -/

@[simp] theorem State.setMode_v (m : Mode) : (s.setMode m).v = s.v := rfl
@[simp] theorem State.setMode_i (m : Mode) : (s.setMode m).i = s.i := rfl
@[simp] theorem State.setMode_pc (m : Mode) : (s.setMode m).pc = s.pc := rfl
@[simp] theorem State.setMode_sp (m : Mode) : (s.setMode m).sp = s.sp := rfl
@[simp] theorem State.setMode_stack (m : Mode) : (s.setMode m).stack = s.stack := rfl
@[simp] theorem State.setMode_dt (m : Mode) : (s.setMode m).dt = s.dt := rfl
@[simp] theorem State.setMode_st (m : Mode) : (s.setMode m).st = s.st := rfl
@[simp] theorem State.setMode_mode (m : Mode) : (s.setMode m).mode = m := rfl
@[simp] theorem State.setMode_keys (m : Mode) : (s.setMode m).keys = s.keys := rfl
@[simp] theorem State.setMode_fb (m : Mode) : (s.setMode m).fb = s.fb := rfl
@[simp] theorem State.setMode_mem (m : Mode) : (s.setMode m).mem = s.mem := rfl
@[simp] theorem State.setMode_img (m : Mode) : (s.setMode m).img = s.img := rfl
@[simp] theorem State.setMode_config (m : Mode) : (s.setMode m).config = s.config := rfl
@[simp] theorem State.setMode_draws (m : Mode) : (s.setMode m).draws = s.draws := rfl
@[simp] theorem State.setMode_events (m : Mode) : (s.setMode m).events = s.events := rfl
@[simp] theorem State.setMode_schedule (m : Mode) : (s.setMode m).schedule = s.schedule := rfl
@[simp] theorem State.setMode_reg (m : Mode) (y : Reg) : (s.setMode m).reg y = s.reg y := rfl
@[simp] theorem State.setMode_readByte (m : Mode) (c : Nat) : (s.setMode m).readByte c = s.readByte c := rfl
@[simp] theorem State.setMode_memWf (m : Mode) : (s.setMode m).memWf = s.memWf := rfl

/-! ### setKeys -/

@[simp] theorem State.setKeys_v (k : Keys) : (s.setKeys k).v = s.v := rfl
@[simp] theorem State.setKeys_i (k : Keys) : (s.setKeys k).i = s.i := rfl
@[simp] theorem State.setKeys_pc (k : Keys) : (s.setKeys k).pc = s.pc := rfl
@[simp] theorem State.setKeys_sp (k : Keys) : (s.setKeys k).sp = s.sp := rfl
@[simp] theorem State.setKeys_stack (k : Keys) : (s.setKeys k).stack = s.stack := rfl
@[simp] theorem State.setKeys_dt (k : Keys) : (s.setKeys k).dt = s.dt := rfl
@[simp] theorem State.setKeys_st (k : Keys) : (s.setKeys k).st = s.st := rfl
@[simp] theorem State.setKeys_mode (k : Keys) : (s.setKeys k).mode = s.mode := rfl
@[simp] theorem State.setKeys_keys (k : Keys) : (s.setKeys k).keys = k := rfl
@[simp] theorem State.setKeys_fb (k : Keys) : (s.setKeys k).fb = s.fb := rfl
@[simp] theorem State.setKeys_mem (k : Keys) : (s.setKeys k).mem = s.mem := rfl
@[simp] theorem State.setKeys_img (k : Keys) : (s.setKeys k).img = s.img := rfl
@[simp] theorem State.setKeys_config (k : Keys) : (s.setKeys k).config = s.config := rfl
@[simp] theorem State.setKeys_draws (k : Keys) : (s.setKeys k).draws = s.draws := rfl
@[simp] theorem State.setKeys_events (k : Keys) : (s.setKeys k).events = s.events := rfl
@[simp] theorem State.setKeys_schedule (k : Keys) : (s.setKeys k).schedule = s.schedule := rfl
@[simp] theorem State.setKeys_reg (k : Keys) (y : Reg) : (s.setKeys k).reg y = s.reg y := rfl
@[simp] theorem State.setKeys_readByte (k : Keys) (c : Nat) : (s.setKeys k).readByte c = s.readByte c := rfl
@[simp] theorem State.setKeys_memWf (k : Keys) : (s.setKeys k).memWf = s.memWf := rfl

/-! ### setFb -/

@[simp] theorem State.setFb_v (f : FrameBuffer) : (s.setFb f).v = s.v := rfl
@[simp] theorem State.setFb_i (f : FrameBuffer) : (s.setFb f).i = s.i := rfl
@[simp] theorem State.setFb_pc (f : FrameBuffer) : (s.setFb f).pc = s.pc := rfl
@[simp] theorem State.setFb_sp (f : FrameBuffer) : (s.setFb f).sp = s.sp := rfl
@[simp] theorem State.setFb_stack (f : FrameBuffer) : (s.setFb f).stack = s.stack := rfl
@[simp] theorem State.setFb_dt (f : FrameBuffer) : (s.setFb f).dt = s.dt := rfl
@[simp] theorem State.setFb_st (f : FrameBuffer) : (s.setFb f).st = s.st := rfl
@[simp] theorem State.setFb_mode (f : FrameBuffer) : (s.setFb f).mode = s.mode := rfl
@[simp] theorem State.setFb_keys (f : FrameBuffer) : (s.setFb f).keys = s.keys := rfl
@[simp] theorem State.setFb_fb (f : FrameBuffer) : (s.setFb f).fb = f := rfl
@[simp] theorem State.setFb_mem (f : FrameBuffer) : (s.setFb f).mem = s.mem := rfl
@[simp] theorem State.setFb_img (f : FrameBuffer) : (s.setFb f).img = s.img := rfl
@[simp] theorem State.setFb_config (f : FrameBuffer) : (s.setFb f).config = s.config := rfl
@[simp] theorem State.setFb_draws (f : FrameBuffer) : (s.setFb f).draws = s.draws := rfl
@[simp] theorem State.setFb_events (f : FrameBuffer) : (s.setFb f).events = s.events := rfl
@[simp] theorem State.setFb_schedule (f : FrameBuffer) : (s.setFb f).schedule = s.schedule := rfl
@[simp] theorem State.setFb_reg (f : FrameBuffer) (y : Reg) : (s.setFb f).reg y = s.reg y := rfl
@[simp] theorem State.setFb_readByte (f : FrameBuffer) (c : Nat) : (s.setFb f).readByte c = s.readByte c := rfl
@[simp] theorem State.setFb_memWf (f : FrameBuffer) : (s.setFb f).memWf = s.memWf := rfl

/-! ### setImg -/

@[simp] theorem State.setImg_v (bs : List Byte) : (s.setImg bs).v = s.v := rfl
@[simp] theorem State.setImg_i (bs : List Byte) : (s.setImg bs).i = s.i := rfl
@[simp] theorem State.setImg_pc (bs : List Byte) : (s.setImg bs).pc = s.pc := rfl
@[simp] theorem State.setImg_sp (bs : List Byte) : (s.setImg bs).sp = s.sp := rfl
@[simp] theorem State.setImg_stack (bs : List Byte) : (s.setImg bs).stack = s.stack := rfl
@[simp] theorem State.setImg_dt (bs : List Byte) : (s.setImg bs).dt = s.dt := rfl
@[simp] theorem State.setImg_st (bs : List Byte) : (s.setImg bs).st = s.st := rfl
@[simp] theorem State.setImg_mode (bs : List Byte) : (s.setImg bs).mode = s.mode := rfl
@[simp] theorem State.setImg_keys (bs : List Byte) : (s.setImg bs).keys = s.keys := rfl
@[simp] theorem State.setImg_fb (bs : List Byte) : (s.setImg bs).fb = s.fb := rfl
@[simp] theorem State.setImg_mem (bs : List Byte) : (s.setImg bs).mem = s.mem := rfl
@[simp] theorem State.setImg_img (bs : List Byte) : (s.setImg bs).img = bs := rfl
@[simp] theorem State.setImg_config (bs : List Byte) : (s.setImg bs).config = s.config := rfl
@[simp] theorem State.setImg_draws (bs : List Byte) : (s.setImg bs).draws = s.draws := rfl
@[simp] theorem State.setImg_events (bs : List Byte) : (s.setImg bs).events = s.events := rfl
@[simp] theorem State.setImg_schedule (bs : List Byte) : (s.setImg bs).schedule = s.schedule := rfl
@[simp] theorem State.setImg_reg (bs : List Byte) (y : Reg) : (s.setImg bs).reg y = s.reg y := rfl
@[simp] theorem State.setImg_readByte (bs : List Byte) (c : Nat) : (s.setImg bs).readByte c = s.readByte c := rfl
@[simp] theorem State.setImg_memWf (bs : List Byte) : (s.setImg bs).memWf = s.memWf := rfl

/-! ### setSchedule -/

@[simp] theorem State.setSchedule_v (ops : List HostOp) : (s.setSchedule ops).v = s.v := rfl
@[simp] theorem State.setSchedule_i (ops : List HostOp) : (s.setSchedule ops).i = s.i := rfl
@[simp] theorem State.setSchedule_pc (ops : List HostOp) : (s.setSchedule ops).pc = s.pc := rfl
@[simp] theorem State.setSchedule_sp (ops : List HostOp) : (s.setSchedule ops).sp = s.sp := rfl
@[simp] theorem State.setSchedule_stack (ops : List HostOp) : (s.setSchedule ops).stack = s.stack := rfl
@[simp] theorem State.setSchedule_dt (ops : List HostOp) : (s.setSchedule ops).dt = s.dt := rfl
@[simp] theorem State.setSchedule_st (ops : List HostOp) : (s.setSchedule ops).st = s.st := rfl
@[simp] theorem State.setSchedule_mode (ops : List HostOp) : (s.setSchedule ops).mode = s.mode := rfl
@[simp] theorem State.setSchedule_keys (ops : List HostOp) : (s.setSchedule ops).keys = s.keys := rfl
@[simp] theorem State.setSchedule_fb (ops : List HostOp) : (s.setSchedule ops).fb = s.fb := rfl
@[simp] theorem State.setSchedule_mem (ops : List HostOp) : (s.setSchedule ops).mem = s.mem := rfl
@[simp] theorem State.setSchedule_img (ops : List HostOp) : (s.setSchedule ops).img = s.img := rfl
@[simp] theorem State.setSchedule_config (ops : List HostOp) : (s.setSchedule ops).config = s.config := rfl
@[simp] theorem State.setSchedule_draws (ops : List HostOp) : (s.setSchedule ops).draws = s.draws := rfl
@[simp] theorem State.setSchedule_events (ops : List HostOp) : (s.setSchedule ops).events = s.events := rfl
@[simp] theorem State.setSchedule_schedule (ops : List HostOp) : (s.setSchedule ops).schedule = ops := rfl
@[simp] theorem State.setSchedule_reg (ops : List HostOp) (y : Reg) : (s.setSchedule ops).reg y = s.reg y := rfl
@[simp] theorem State.setSchedule_readByte (ops : List HostOp) (c : Nat) : (s.setSchedule ops).readByte c = s.readByte c := rfl
@[simp] theorem State.setSchedule_memWf (ops : List HostOp) : (s.setSchedule ops).memWf = s.memWf := rfl

/-! ### countDraw -/

@[simp] theorem State.countDraw_v : (s.countDraw).v = s.v := rfl
@[simp] theorem State.countDraw_i : (s.countDraw).i = s.i := rfl
@[simp] theorem State.countDraw_pc : (s.countDraw).pc = s.pc := rfl
@[simp] theorem State.countDraw_sp : (s.countDraw).sp = s.sp := rfl
@[simp] theorem State.countDraw_stack : (s.countDraw).stack = s.stack := rfl
@[simp] theorem State.countDraw_dt : (s.countDraw).dt = s.dt := rfl
@[simp] theorem State.countDraw_st : (s.countDraw).st = s.st := rfl
@[simp] theorem State.countDraw_mode : (s.countDraw).mode = s.mode := rfl
@[simp] theorem State.countDraw_keys : (s.countDraw).keys = s.keys := rfl
@[simp] theorem State.countDraw_fb : (s.countDraw).fb = s.fb := rfl
@[simp] theorem State.countDraw_mem : (s.countDraw).mem = s.mem := rfl
@[simp] theorem State.countDraw_img : (s.countDraw).img = s.img := rfl
@[simp] theorem State.countDraw_config : (s.countDraw).config = s.config := rfl
@[simp] theorem State.countDraw_draws : (s.countDraw).draws = s.draws + 1 := rfl
@[simp] theorem State.countDraw_events : (s.countDraw).events = s.events := rfl
@[simp] theorem State.countDraw_schedule : (s.countDraw).schedule = s.schedule := rfl
@[simp] theorem State.countDraw_reg (y : Reg) : (s.countDraw).reg y = s.reg y := rfl
@[simp] theorem State.countDraw_readByte (c : Nat) : (s.countDraw).readByte c = s.readByte c := rfl
@[simp] theorem State.countDraw_memWf : (s.countDraw).memWf = s.memWf := rfl

/-! ### emit -/

@[simp] theorem State.emit_v (es : List Event) : (s.emit es).v = s.v := rfl
@[simp] theorem State.emit_i (es : List Event) : (s.emit es).i = s.i := rfl
@[simp] theorem State.emit_pc (es : List Event) : (s.emit es).pc = s.pc := rfl
@[simp] theorem State.emit_sp (es : List Event) : (s.emit es).sp = s.sp := rfl
@[simp] theorem State.emit_stack (es : List Event) : (s.emit es).stack = s.stack := rfl
@[simp] theorem State.emit_dt (es : List Event) : (s.emit es).dt = s.dt := rfl
@[simp] theorem State.emit_st (es : List Event) : (s.emit es).st = s.st := rfl
@[simp] theorem State.emit_mode (es : List Event) : (s.emit es).mode = s.mode := rfl
@[simp] theorem State.emit_keys (es : List Event) : (s.emit es).keys = s.keys := rfl
@[simp] theorem State.emit_fb (es : List Event) : (s.emit es).fb = s.fb := rfl
@[simp] theorem State.emit_mem (es : List Event) : (s.emit es).mem = s.mem := rfl
@[simp] theorem State.emit_img (es : List Event) : (s.emit es).img = s.img := rfl
@[simp] theorem State.emit_config (es : List Event) : (s.emit es).config = s.config := rfl
@[simp] theorem State.emit_draws (es : List Event) : (s.emit es).draws = s.draws := rfl
@[simp] theorem State.emit_events (es : List Event) : (s.emit es).events = s.events ++ es := rfl
@[simp] theorem State.emit_schedule (es : List Event) : (s.emit es).schedule = s.schedule := rfl
@[simp] theorem State.emit_reg (es : List Event) (y : Reg) : (s.emit es).reg y = s.reg y := rfl
@[simp] theorem State.emit_readByte (es : List Event) (c : Nat) : (s.emit es).readByte c = s.readByte c := rfl
@[simp] theorem State.emit_memWf (es : List Event) : (s.emit es).memWf = s.memWf := rfl

/-! ### setSt -/

@[simp] theorem State.setSt_v (b : Byte) : (s.setSt b).v = s.v := rfl
@[simp] theorem State.setSt_i (b : Byte) : (s.setSt b).i = s.i := rfl
@[simp] theorem State.setSt_pc (b : Byte) : (s.setSt b).pc = s.pc := rfl
@[simp] theorem State.setSt_sp (b : Byte) : (s.setSt b).sp = s.sp := rfl
@[simp] theorem State.setSt_stack (b : Byte) : (s.setSt b).stack = s.stack := rfl
@[simp] theorem State.setSt_dt (b : Byte) : (s.setSt b).dt = s.dt := rfl
@[simp] theorem State.setSt_st (b : Byte) : (s.setSt b).st = b := rfl
@[simp] theorem State.setSt_mode (b : Byte) : (s.setSt b).mode = s.mode := rfl
@[simp] theorem State.setSt_keys (b : Byte) : (s.setSt b).keys = s.keys := rfl
@[simp] theorem State.setSt_fb (b : Byte) : (s.setSt b).fb = s.fb := rfl
@[simp] theorem State.setSt_mem (b : Byte) : (s.setSt b).mem = s.mem := rfl
@[simp] theorem State.setSt_img (b : Byte) : (s.setSt b).img = s.img := rfl
@[simp] theorem State.setSt_config (b : Byte) : (s.setSt b).config = s.config := rfl
@[simp] theorem State.setSt_draws (b : Byte) : (s.setSt b).draws = s.draws := rfl
@[simp] theorem State.setSt_events (b : Byte) : (s.setSt b).events = s.events ++ soundEdges s.st b := rfl
@[simp] theorem State.setSt_schedule (b : Byte) : (s.setSt b).schedule = s.schedule := rfl
@[simp] theorem State.setSt_reg (b : Byte) (y : Reg) : (s.setSt b).reg y = s.reg y := rfl
@[simp] theorem State.setSt_readByte (b : Byte) (c : Nat) : (s.setSt b).readByte c = s.readByte c := rfl
@[simp] theorem State.setSt_memWf (b : Byte) : (s.setSt b).memWf = s.memWf := rfl

/-! ### writeBytes -/

@[simp] theorem State.writeBytes_v (a : Nat) (bs : List Byte) : (s.writeBytes a bs).v = s.v := rfl
@[simp] theorem State.writeBytes_i (a : Nat) (bs : List Byte) : (s.writeBytes a bs).i = s.i := rfl
@[simp] theorem State.writeBytes_pc (a : Nat) (bs : List Byte) : (s.writeBytes a bs).pc = s.pc := rfl
@[simp] theorem State.writeBytes_sp (a : Nat) (bs : List Byte) : (s.writeBytes a bs).sp = s.sp := rfl
@[simp] theorem State.writeBytes_stack (a : Nat) (bs : List Byte) : (s.writeBytes a bs).stack = s.stack := rfl
@[simp] theorem State.writeBytes_dt (a : Nat) (bs : List Byte) : (s.writeBytes a bs).dt = s.dt := rfl
@[simp] theorem State.writeBytes_st (a : Nat) (bs : List Byte) : (s.writeBytes a bs).st = s.st := rfl
@[simp] theorem State.writeBytes_mode (a : Nat) (bs : List Byte) : (s.writeBytes a bs).mode = s.mode := rfl
@[simp] theorem State.writeBytes_keys (a : Nat) (bs : List Byte) : (s.writeBytes a bs).keys = s.keys := rfl
@[simp] theorem State.writeBytes_fb (a : Nat) (bs : List Byte) : (s.writeBytes a bs).fb = s.fb := rfl
@[simp] theorem State.writeBytes_mem (a : Nat) (bs : List Byte) : (s.writeBytes a bs).mem = Memory.writeBytes s.config.glyphs s.mem a bs := rfl
@[simp] theorem State.writeBytes_img (a : Nat) (bs : List Byte) : (s.writeBytes a bs).img = s.img := rfl
@[simp] theorem State.writeBytes_config (a : Nat) (bs : List Byte) : (s.writeBytes a bs).config = s.config := rfl
@[simp] theorem State.writeBytes_draws (a : Nat) (bs : List Byte) : (s.writeBytes a bs).draws = s.draws := rfl
@[simp] theorem State.writeBytes_events (a : Nat) (bs : List Byte) : (s.writeBytes a bs).events = s.events := rfl
@[simp] theorem State.writeBytes_schedule (a : Nat) (bs : List Byte) : (s.writeBytes a bs).schedule = s.schedule := rfl
@[simp] theorem State.writeBytes_reg (a : Nat) (bs : List Byte) (y : Reg) : (s.writeBytes a bs).reg y = s.reg y := rfl

/-! ### setRegThenFlag -/

@[simp] theorem State.setRegThenFlag_v (x : Reg) (r c : Byte) : (s.setRegThenFlag x r c).v = (s.v.set x r).set vf c := rfl
@[simp] theorem State.setRegThenFlag_i (x : Reg) (r c : Byte) : (s.setRegThenFlag x r c).i = s.i := rfl
@[simp] theorem State.setRegThenFlag_pc (x : Reg) (r c : Byte) : (s.setRegThenFlag x r c).pc = s.pc := rfl
@[simp] theorem State.setRegThenFlag_sp (x : Reg) (r c : Byte) : (s.setRegThenFlag x r c).sp = s.sp := rfl
@[simp] theorem State.setRegThenFlag_stack (x : Reg) (r c : Byte) : (s.setRegThenFlag x r c).stack = s.stack := rfl
@[simp] theorem State.setRegThenFlag_dt (x : Reg) (r c : Byte) : (s.setRegThenFlag x r c).dt = s.dt := rfl
@[simp] theorem State.setRegThenFlag_st (x : Reg) (r c : Byte) : (s.setRegThenFlag x r c).st = s.st := rfl
@[simp] theorem State.setRegThenFlag_mode (x : Reg) (r c : Byte) : (s.setRegThenFlag x r c).mode = s.mode := rfl
@[simp] theorem State.setRegThenFlag_keys (x : Reg) (r c : Byte) : (s.setRegThenFlag x r c).keys = s.keys := rfl
@[simp] theorem State.setRegThenFlag_fb (x : Reg) (r c : Byte) : (s.setRegThenFlag x r c).fb = s.fb := rfl
@[simp] theorem State.setRegThenFlag_mem (x : Reg) (r c : Byte) : (s.setRegThenFlag x r c).mem = s.mem := rfl
@[simp] theorem State.setRegThenFlag_img (x : Reg) (r c : Byte) : (s.setRegThenFlag x r c).img = s.img := rfl
@[simp] theorem State.setRegThenFlag_config (x : Reg) (r c : Byte) : (s.setRegThenFlag x r c).config = s.config := rfl
@[simp] theorem State.setRegThenFlag_draws (x : Reg) (r c : Byte) : (s.setRegThenFlag x r c).draws = s.draws := rfl
@[simp] theorem State.setRegThenFlag_events (x : Reg) (r c : Byte) : (s.setRegThenFlag x r c).events = s.events := rfl
@[simp] theorem State.setRegThenFlag_schedule (x : Reg) (r c : Byte) : (s.setRegThenFlag x r c).schedule = s.schedule := rfl
@[simp] theorem State.setRegThenFlag_readByte (x : Reg) (r c : Byte) (d : Nat) : (s.setRegThenFlag x r c).readByte d = s.readByte d := rfl
@[simp] theorem State.setRegThenFlag_memWf (x : Reg) (r c : Byte) : (s.setRegThenFlag x r c).memWf = s.memWf := rfl

/-! ### setFlagThenReg -/

@[simp] theorem State.setFlagThenReg_v (x : Reg) (r c : Byte) : (s.setFlagThenReg x r c).v = (s.v.set vf c).set x r := rfl
@[simp] theorem State.setFlagThenReg_i (x : Reg) (r c : Byte) : (s.setFlagThenReg x r c).i = s.i := rfl
@[simp] theorem State.setFlagThenReg_pc (x : Reg) (r c : Byte) : (s.setFlagThenReg x r c).pc = s.pc := rfl
@[simp] theorem State.setFlagThenReg_sp (x : Reg) (r c : Byte) : (s.setFlagThenReg x r c).sp = s.sp := rfl
@[simp] theorem State.setFlagThenReg_stack (x : Reg) (r c : Byte) : (s.setFlagThenReg x r c).stack = s.stack := rfl
@[simp] theorem State.setFlagThenReg_dt (x : Reg) (r c : Byte) : (s.setFlagThenReg x r c).dt = s.dt := rfl
@[simp] theorem State.setFlagThenReg_st (x : Reg) (r c : Byte) : (s.setFlagThenReg x r c).st = s.st := rfl
@[simp] theorem State.setFlagThenReg_mode (x : Reg) (r c : Byte) : (s.setFlagThenReg x r c).mode = s.mode := rfl
@[simp] theorem State.setFlagThenReg_keys (x : Reg) (r c : Byte) : (s.setFlagThenReg x r c).keys = s.keys := rfl
@[simp] theorem State.setFlagThenReg_fb (x : Reg) (r c : Byte) : (s.setFlagThenReg x r c).fb = s.fb := rfl
@[simp] theorem State.setFlagThenReg_mem (x : Reg) (r c : Byte) : (s.setFlagThenReg x r c).mem = s.mem := rfl
@[simp] theorem State.setFlagThenReg_img (x : Reg) (r c : Byte) : (s.setFlagThenReg x r c).img = s.img := rfl
@[simp] theorem State.setFlagThenReg_config (x : Reg) (r c : Byte) : (s.setFlagThenReg x r c).config = s.config := rfl
@[simp] theorem State.setFlagThenReg_draws (x : Reg) (r c : Byte) : (s.setFlagThenReg x r c).draws = s.draws := rfl
@[simp] theorem State.setFlagThenReg_events (x : Reg) (r c : Byte) : (s.setFlagThenReg x r c).events = s.events := rfl
@[simp] theorem State.setFlagThenReg_schedule (x : Reg) (r c : Byte) : (s.setFlagThenReg x r c).schedule = s.schedule := rfl
@[simp] theorem State.setFlagThenReg_readByte (x : Reg) (r c : Byte) (d : Nat) : (s.setFlagThenReg x r c).readByte d = s.readByte d := rfl
@[simp] theorem State.setFlagThenReg_memWf (x : Reg) (r c : Byte) : (s.setFlagThenReg x r c).memWf = s.memWf := rfl

/-! ### Reading registers -/

theorem State.reg_setReg (x y : Reg) (b : Byte) :
    (s.setReg x b).reg y = if x = y then b else s.reg y := by
  simp only [State.reg, State.setReg, Fin.getElem_fin, Vector.getElem_set, Fin.val_inj]

@[simp] theorem State.reg_setReg_same (x : Reg) (b : Byte) : (s.setReg x b).reg x = b := by
  simp [State.reg_setReg]

theorem State.reg_setReg_other {x y : Reg} (b : Byte) (h : x ≠ y) : (s.setReg x b).reg y = s.reg y := by
  simp [State.reg_setReg, h]

theorem State.reg_setRegThenFlag (x y : Reg) (r c : Byte) :
    (s.setRegThenFlag x r c).reg y = if vf = y then c else if x = y then r else s.reg y := by
  simp only [State.setRegThenFlag, State.reg_setReg]

theorem State.reg_setFlagThenReg (x y : Reg) (r c : Byte) :
    (s.setFlagThenReg x r c).reg y = if x = y then r else if vf = y then c else s.reg y := by
  simp only [State.setFlagThenReg, State.reg_setReg]

end Sys2Proof.Machine
end

