-- ==== Sys2Proof/Laws/Display.lean ====
section
/-! SUPPORT. The laws of the frame buffer: one flip, the pixels of a sprite (no two on one place), and what a whole draw leaves. -/

namespace Sys2Proof.Machine

theorem FrameBuffer.pixel_flip (f : FrameBuffer) (x x' : Fin 64) (y y' : Fin 32) :
    (f.flip x y).pixel x' y' = (f.pixel x' y' ^^ decide (x = x' ∧ y = y')) := by
  simp only [FrameBuffer.pixel, FrameBuffer.flip, Fin.getElem_fin, Vector.getElem_set]
  by_cases hy : y = y'
  · subst hy
    simp [Fin.ext_iff, eq_comm]
  · have : y.val ≠ y'.val := fun h => hy (Fin.ext h)
    simp [hy, this]

@[simp] theorem FrameBuffer.pixel_clear (x : Fin 64) (y : Fin 32) : FrameBuffer.clear.pixel x y = false := by
  simp [FrameBuffer.clear, FrameBuffer.pixel]

theorem FrameBuffer.ext_pixel {f g : FrameBuffer} (h : ∀ x y, f.pixel x y = g.pixel x y) : f = g := by
  apply Vector.ext
  intro y hy
  apply BitVec.eq_of_getLsbD_eq
  intro x hx
  exact h ⟨x, hx⟩ ⟨y, hy⟩

/-! ### Cells -/

theorem place_inj {e : DrawEdge} {cx cy cx' cy' x0 y0 : Nat} {p : Fin 64 × Fin 32} (h : place e cx cy = some p)
    (h' : place e cx' cy' = some p) (hx : x0 ≤ cx ∧ cx < x0 + 64) (hx' : x0 ≤ cx' ∧ cx' < x0 + 64)
    (hy : y0 ≤ cy ∧ cy < y0 + 32) (hy' : y0 ≤ cy' ∧ cy' < y0 + 32) : cx = cx' ∧ cy = cy' := by
  cases e with
  | wrap =>
    simp only [place, Option.some.injEq] at h h'
    rw [← h'] at h
    simp only [Prod.mk.injEq, Fin.mk.injEq] at h
    omega
  | error =>
    simp only [place] at h h'
    split at h <;> split at h' <;> simp only [Option.some.injEq, reduceCtorEq] at h h'
    rw [← h'] at h
    simpa [Fin.ext_iff] using h
  | clip =>
    simp only [place] at h h'
    split at h <;> split at h' <;> simp only [Option.some.injEq, reduceCtorEq] at h h'
    rw [← h'] at h
    simpa [Fin.ext_iff] using h

theorem mem_rowPixels {e : DrawEdge} {x0 y : Nat} {b : Byte} {p : Fin 64 × Fin 32} :
    p ∈ rowPixels e x0 y b ↔ ∃ c, c < 8 ∧ b.getLsbD (7 - c) = true ∧ place e (x0 + c) y = some p := by
  simp only [rowPixels, List.mem_filterMap, List.mem_range, Option.ite_none_right_eq_some]

theorem mem_spritePixels {e : DrawEdge} {x0 y0 : Nat} {bs : List Byte} {p : Fin 64 × Fin 32} :
    p ∈ spritePixels e x0 y0 bs ↔
      ∃ r c, ∃ h : r < bs.length, c < 8 ∧ bs[r].getLsbD (7 - c) = true ∧ place e (x0 + c) (y0 + r) = some p := by
  induction bs generalizing y0 with
  | nil => simp [spritePixels]
  | cons b bs ih =>
    simp only [spritePixels, List.mem_append, mem_rowPixels, ih]
    constructor
    · rintro (⟨c, hc, hb, hp⟩ | ⟨r, c, hr, hc, hb, hp⟩)
      · exact ⟨0, c, by simp, hc, by simpa using hb, by simpa using hp⟩
      · exact ⟨r + 1, c, by simpa using hr, hc, by simpa using hb, by
          rw [show y0 + (r + 1) = y0 + 1 + r by omega]; exact hp⟩
    · rintro ⟨r, c, hr, hc, hb, hp⟩
      cases r with
      | zero => exact .inl ⟨c, hc, by simpa using hb, by simpa using hp⟩
      | succ r =>
        refine .inr ⟨r, c, by simpa using hr, hc, by simpa using hb, ?_⟩
        rw [show y0 + (r + 1) = y0 + 1 + r by omega] at hp; exact hp

theorem nodup_rowPixels (e : DrawEdge) (x0 y : Nat) (b : Byte) : (rowPixels e x0 y b).Nodup := by
  unfold rowPixels
  rw [List.Nodup, List.pairwise_filterMap]
  refine List.Pairwise.imp_of_mem ?_ (List.nodup_range (n := 8))
  intro c c' hc hc' hne p hp q hq hpq
  subst hpq
  rw [List.mem_range] at hc hc'
  rw [Option.ite_none_right_eq_some] at hp hq
  have := place_inj (x0 := x0) (y0 := y) hp.2 hq.2 (by omega) (by omega) (by omega) (by omega)
  omega

/-- No two set bits of a sprite land on one pixel: the sprite is 8 by at most 15, the buffer 64 by 32 (44_display.md R142). -/
theorem nodup_spritePixels (e : DrawEdge) (x0 y0 : Nat) (bs : List Byte) (h : bs.length ≤ 32) :
    (spritePixels e x0 y0 bs).Nodup := by
  induction bs generalizing y0 with
  | nil => exact List.nodup_nil
  | cons b bs ih =>
    simp only [List.length_cons] at h
    refine List.nodup_append.2 ⟨nodup_rowPixels e x0 y0 b, ih (y0 + 1) (by omega), ?_⟩
    rintro p hp q hq rfl
    obtain ⟨c, hc, -, hp⟩ := mem_rowPixels.1 hp
    obtain ⟨r, c', hr, hc', -, hq⟩ := mem_spritePixels.1 hq
    have := place_inj (x0 := x0) (y0 := y0) hp hq (by omega) (by omega) (by omega) (by omega)
    omega

/-! ### Draws -/

theorem drawPixels_cons (f : FrameBuffer) (acc : Bool) (p : Fin 64 × Fin 32) (ps : List (Fin 64 × Fin 32)) :
    (p :: ps).foldl drawPixel (f, acc) = ps.foldl drawPixel (f.flip p.1 p.2, acc || f.pixel p.1 p.2) := rfl

theorem pixel_foldl_drawPixel {f : FrameBuffer} {acc : Bool} {ps : List (Fin 64 × Fin 32)} (h : ps.Nodup) (x : Fin 64)
    (y : Fin 32) : (ps.foldl drawPixel (f, acc)).1.pixel x y = (f.pixel x y ^^ decide ((x, y) ∈ ps)) := by
  induction ps generalizing f acc with
  | nil => simp
  | cons p ps ih =>
    obtain ⟨px, py⟩ := p
    obtain ⟨hp, hps⟩ := List.nodup_cons.1 h
    rw [drawPixels_cons, ih hps, FrameBuffer.pixel_flip]
    by_cases he : px = x ∧ py = y
    · obtain ⟨rfl, rfl⟩ := he
      simp [hp]
    · have : ¬ (x = px ∧ y = py) := fun hh => he ⟨hh.1.symm, hh.2.symm⟩
      simp [he, this]

theorem hit_foldl_drawPixel {f : FrameBuffer} {acc : Bool} {ps : List (Fin 64 × Fin 32)} (h : ps.Nodup) :
    (ps.foldl drawPixel (f, acc)).2 = (acc || ps.any fun p => f.pixel p.1 p.2) := by
  induction ps generalizing f acc with
  | nil => simp
  | cons p ps ih =>
    obtain ⟨px, py⟩ := p
    obtain ⟨hp, hps⟩ := List.nodup_cons.1 h
    rw [drawPixels_cons, ih hps, List.any_cons, ← Bool.or_assoc]
    congr 1
    rw [Bool.eq_iff_iff, List.any_eq_true, List.any_eq_true]
    refine exists_congr fun q => and_congr_right fun hq => ?_
    have hne : ¬ (px = q.1 ∧ py = q.2) := by
      rintro ⟨rfl, rfl⟩; exact hp hq
    rw [FrameBuffer.pixel_flip]
    simp [hne]

/-- The pixels a draw changes are exactly those its set bits land on (44_display.md R142). -/
theorem pixel_drawPixels {f : FrameBuffer} {ps : List (Fin 64 × Fin 32)} (h : ps.Nodup) (x : Fin 64) (y : Fin 32) :
    (drawPixels f ps).1.pixel x y = (f.pixel x y ^^ decide ((x, y) ∈ ps)) := pixel_foldl_drawPixel h x y

/-- The collision: some set bit lands on a pixel that was set before the draw (44_display.md R142). -/
theorem hit_drawPixels {f : FrameBuffer} {ps : List (Fin 64 × Fin 32)} (h : ps.Nodup) :
    (drawPixels f ps).2 = ps.any fun p => f.pixel p.1 p.2 := by
  rw [drawPixels, hit_foldl_drawPixel h, Bool.false_or]

end Sys2Proof.Machine
end

