-- ==== Sys2Proof/Laws/Memory.lean ====
section
/-! SUPPORT. The laws of memory: a read after a write at the same place gives the value written, a write leaves every other place alone, every
memory operation keeps the canonical form, and the reset memory has it. -/

namespace Sys2Proof.Machine

/-! ### Listed entries -/

theorem Memory.lookup_erase (m : Memory) (a c : Nat) :
    Memory.lookup (Memory.erase m a) c = if c = a then none else Memory.lookup m c := by
  induction m with
  | nil => simp [Memory.erase, Memory.lookup]
  | cons e m ih =>
    obtain ⟨k, b⟩ := e
    simp only [Memory.erase] at ih ⊢
    by_cases hk : k = a
    · subst hk
      simp only [List.filter, bne_self_eq_false, ih, Memory.lookup]
      by_cases hc : c = k
      · simp [hc]
      · simp [hc, Ne.symm hc]
    · have hb : (k != a) = true := by simpa using hk
      simp only [List.filter, hb, Memory.lookup, ih]
      by_cases hc : k = c
      · subst hc; simp [hk]
      · simp [hc]

theorem Memory.lookup_insert (m : Memory) (a c : Nat) (b : Byte) (h : Memory.lookup m a = none) :
    Memory.lookup (Memory.insert m a b) c = if c = a then some b else Memory.lookup m c := by
  induction m with
  | nil => by_cases hc : a = c <;> simp [Memory.insert, Memory.lookup, hc, eq_comm]
  | cons e m ih =>
    obtain ⟨k, d⟩ := e
    have hk : k ≠ a := by intro hk; simp [Memory.lookup, hk] at h
    have hm : Memory.lookup m a = none := by simpa [Memory.lookup, hk] using h
    simp only [Memory.insert]
    split
    · by_cases hc : c = a
      · simp [Memory.lookup, hc]
      · simp [Memory.lookup, hc, Ne.symm hc]
    · simp only [Memory.lookup, ih hm]
      by_cases hc : k = c
      · subst hc; simp [hk]
      · simp [hc]

/-! ### Reads and writes -/

theorem Memory.read_write (g : Glyphs) (m : Memory) (a c : Nat) (b : Byte) :
    Memory.read g (Memory.write g m a b) c = if c = a then b else Memory.read g m c := by
  have he : Memory.lookup (Memory.erase m a) a = none := by simp [Memory.lookup_erase]
  simp only [Memory.read, Memory.write]
  split
  · next hb =>
    rw [Memory.lookup_erase]
    by_cases hc : c = a
    · simp [hc, hb]
    · simp [hc]
  · rw [Memory.lookup_insert _ _ _ _ he, Memory.lookup_erase]
    by_cases hc : c = a <;> simp [hc]

@[simp] theorem Memory.read_nil (g : Glyphs) (a : Nat) : Memory.read g [] a = Memory.blank g a := rfl

theorem Memory.read_writeBytes (g : Glyphs) (m : Memory) (a c : Nat) (bs : List Byte) :
    Memory.read g (Memory.writeBytes g m a bs) c =
      if a ≤ c then (bs[c - a]?).getD (Memory.read g m c) else Memory.read g m c := by
  induction bs generalizing m a with
  | nil => simp [Memory.writeBytes]
  | cons b bs ih =>
    simp only [Memory.writeBytes, ih, Memory.read_write]
    rcases Nat.lt_trichotomy c a with h | h | h
    · rw [if_neg (by omega), if_neg (by omega), if_neg (by omega)]
    · subst h; simp
    · rw [if_pos (by omega), if_neg (by omega), if_pos (by omega)]
      obtain ⟨j, hj⟩ : ∃ j, c - a = j + 1 := ⟨c - a - 1, by omega⟩
      have hj' : c - (a + 1) = j := by omega
      rw [hj, hj', List.getElem?_cons_succ]

theorem Memory.read_writeBytes_outside (g : Glyphs) (m : Memory) {a c : Nat} {bs : List Byte}
    (h : c < a ∨ a + bs.length ≤ c) : Memory.read g (Memory.writeBytes g m a bs) c = Memory.read g m c := by
  rw [Memory.read_writeBytes]
  split
  · rw [List.getElem?_eq_none (by omega)]; rfl
  · rfl

theorem Memory.read_writeBytes_inside (g : Glyphs) (m : Memory) {a k : Nat} {bs : List Byte} (h : k < bs.length) :
    Memory.read g (Memory.writeBytes g m a bs) (a + k) = bs[k] := by
  rw [Memory.read_writeBytes, if_pos (by omega)]
  simp [h]

theorem State.readByte_writeBytes_outside (s : State) {a c : Nat} {bs : List Byte} (h : c < a ∨ a + bs.length ≤ c) :
    (s.writeBytes a bs).readByte c = s.readByte c :=
  Memory.read_writeBytes_outside _ _ h

theorem State.readByte_writeBytes_inside (s : State) {a k : Nat} {bs : List Byte} (h : k < bs.length) :
    (s.writeBytes a bs).readByte (a + k) = bs[k] :=
  Memory.read_writeBytes_inside _ _ h

/-! ### Bytes placed over blank memory -/

theorem Memory.read_ofBytes_below (g : Glyphs) {a c : Nat} {bs : List Byte} (h : c < a) :
    Memory.lookup (Memory.ofBytes g a bs) c = none := by
  induction bs generalizing a with
  | nil => rfl
  | cons b bs ih =>
    simp only [Memory.ofBytes]
    split
    · exact ih (by omega)
    · simp [Memory.lookup, show a ≠ c by omega, ih (show c < a + 1 by omega)]

theorem Memory.read_ofBytes (g : Glyphs) (a c : Nat) (bs : List Byte) :
    Memory.read g (Memory.ofBytes g a bs) c =
      if a ≤ c then (bs[c - a]?).getD (Memory.blank g c) else Memory.blank g c := by
  induction bs generalizing a with
  | nil => simp [Memory.ofBytes]
  | cons b bs ih =>
    rcases Nat.lt_trichotomy c a with h | h | h
    · rw [if_neg (by omega), Memory.read, Memory.read_ofBytes_below g h]; rfl
    · subst h
      simp only [Memory.ofBytes]
      split
      · next hb => rw [Memory.read, Memory.read_ofBytes_below g (by omega)]; simp [hb]
      · simp [Memory.read, Memory.lookup]
    · obtain ⟨j, hj⟩ : ∃ j, c - a = j + 1 := ⟨c - a - 1, by omega⟩
      have hj' : c - (a + 1) = j := by omega
      have ih' := ih (a + 1)
      rw [if_pos (by omega), hj'] at ih'
      rw [if_pos (by omega), hj, List.getElem?_cons_succ, ← ih']
      simp only [Memory.ofBytes]
      split
      · rfl
      · simp [Memory.read, Memory.lookup, show a ≠ c by omega]

/-! ### The canonical form -/

theorem Memory.wfFrom_cons {g : Glyphs} {lo k : Nat} {c : Byte} {m : Memory} :
    Memory.wfFrom g lo ((k, c) :: m) = true ↔
      lo ≤ k ∧ k < memSize ∧ c ≠ Memory.blank g k ∧ Memory.wfFrom g (k + 1) m = true := by
  simp [Memory.wfFrom, and_assoc]

theorem Memory.wfFrom_mono {g : Glyphs} {lo lo' : Nat} {m : Memory} (hl : lo ≤ lo') (h : Memory.wfFrom g lo' m = true) :
    Memory.wfFrom g lo m = true := by
  cases m with
  | nil => rfl
  | cons e m =>
    obtain ⟨k, c⟩ := e
    rw [Memory.wfFrom_cons] at h ⊢
    exact ⟨by omega, h.2⟩

theorem Memory.wfFrom_filter {g : Glyphs} {lo : Nat} {m : Memory} (p : Host.Cell → Bool)
    (h : Memory.wfFrom g lo m = true) : Memory.wfFrom g lo (m.filter p) = true := by
  induction m generalizing lo with
  | nil => rfl
  | cons e m ih =>
    obtain ⟨k, c⟩ := e
    rw [Memory.wfFrom_cons] at h
    obtain ⟨h1, h2, h3, h4⟩ := h
    simp only [List.filter]
    split
    · exact Memory.wfFrom_cons.2 ⟨h1, h2, h3, ih h4⟩
    · exact Memory.wfFrom_mono (by omega) (ih h4)

theorem Memory.wfFrom_insert {g : Glyphs} {lo a : Nat} {b : Byte} {m : Memory} (h : Memory.wfFrom g lo m = true)
    (hm : Memory.lookup m a = none) (hlo : lo ≤ a) (ha : a < memSize) (hb : b ≠ Memory.blank g a) :
    Memory.wfFrom g lo (Memory.insert m a b) = true := by
  induction m generalizing lo with
  | nil => exact Memory.wfFrom_cons.2 ⟨hlo, ha, hb, rfl⟩
  | cons e m ih =>
    obtain ⟨k, c⟩ := e
    have hk : k ≠ a := by intro hk; simp [Memory.lookup, hk] at hm
    have hm' : Memory.lookup m a = none := by simpa [Memory.lookup, hk] using hm
    rw [Memory.wfFrom_cons] at h
    obtain ⟨h1, h2, h3, h4⟩ := h
    simp only [Memory.insert]
    split
    · next hlt =>
      exact Memory.wfFrom_cons.2 ⟨hlo, ha, hb, Memory.wfFrom_cons.2 ⟨by omega, h2, h3, h4⟩⟩
    · exact Memory.wfFrom_cons.2 ⟨h1, h2, h3, ih h4 hm' (by omega)⟩

theorem Memory.wf_write {g : Glyphs} {m : Memory} {a : Nat} (b : Byte) (h : Memory.wf g m = true) (ha : a < memSize) :
    Memory.wf g (Memory.write g m a b) = true := by
  have he : Memory.wfFrom g 0 (Memory.erase m a) = true := Memory.wfFrom_filter _ h
  simp only [Memory.wf, Memory.write]
  split
  · exact he
  · next hb => exact Memory.wfFrom_insert he (by simp [Memory.lookup_erase]) (by omega) ha hb

theorem Memory.wf_writeBytes {g : Glyphs} {m : Memory} {a : Nat} {bs : List Byte} (h : Memory.wf g m = true)
    (ha : a + bs.length ≤ memSize) : Memory.wf g (Memory.writeBytes g m a bs) = true := by
  induction bs generalizing m a with
  | nil => exact h
  | cons b bs ih =>
    simp only [List.length_cons] at ha
    exact ih (Memory.wf_write b h (by omega)) (by omega)

theorem Memory.wfFrom_ofBytes (g : Glyphs) {a : Nat} {bs : List Byte} (h : a + bs.length ≤ memSize) :
    Memory.wfFrom g a (Memory.ofBytes g a bs) = true := by
  induction bs generalizing a with
  | nil => rfl
  | cons b bs ih =>
    simp only [List.length_cons] at h
    have h' := ih (a := a + 1) (by omega)
    simp only [Memory.ofBytes]
    split
    · exact Memory.wfFrom_mono (by omega) h'
    · next hb => exact Memory.wfFrom_cons.2 ⟨by omega, by omega, hb, h'⟩

theorem Memory.wfFrom_append {g : Glyphs} {lo mid : Nat} {m n : Memory} (hm : Memory.wfFrom g lo m = true)
    (hlt : ∀ e ∈ m, e.1 < mid) (hn : Memory.wfFrom g mid n = true) (hlo : lo ≤ mid) :
    Memory.wfFrom g lo (m ++ n) = true := by
  induction m generalizing lo with
  | nil => exact Memory.wfFrom_mono hlo hn
  | cons e m ih =>
    obtain ⟨k, c⟩ := e
    rw [Memory.wfFrom_cons] at hm
    obtain ⟨h1, h2, h3, h4⟩ := hm
    have hk : k < mid := hlt (k, c) (by simp)
    exact Memory.wfFrom_cons.2 ⟨h1, h2, h3, ih h4 (fun e he => hlt e (by simp [he])) (by omega)⟩

theorem Memory.wf_loaded {g : Glyphs} {m : Memory} {bs : List Byte} (h : Memory.wf g m = true) (hb : bs.length ≤ maxProg) :
    Memory.wf g (Memory.lowRegion m ++ Memory.ofBytes g progBase bs) = true := by
  refine Memory.wfFrom_append (mid := progBase) (Memory.wfFrom_filter _ h) ?_ (Memory.wfFrom_ofBytes g ?_) (by decide)
  · intro e he
    simp only [Memory.lowRegion, List.mem_filter, Bool.and_eq_true, decide_eq_true_eq] at he
    exact he.2.2
  · simp only [progBase, memSize, maxProg] at *; omega

theorem Memory.wf_imaged (g : Glyphs) (bs : List Byte) :
    Memory.wf g (Memory.ofBytes g progBase (bs.take maxProg)) = true := by
  refine Memory.wfFrom_mono (lo' := progBase) (by decide) (Memory.wfFrom_ofBytes g ?_)
  have := List.length_take_le maxProg bs
  simp only [progBase, memSize, maxProg] at *; omega

/-! ### The state's memory -/

theorem State.memWf_writeBytes {s : State} {a : Nat} {bs : List Byte} (h : s.memWf = true) (ha : a + bs.length ≤ memSize) :
    (s.writeBytes a bs).memWf = true :=
  Memory.wf_writeBytes (m := s.mem) h ha

theorem State.reset_memWf : State.reset.memWf = true := rfl

theorem Memory.lookup_filter (m : Memory) (p : Nat → Bool) (a : Nat) :
    Memory.lookup (m.filter fun e => p e.1) a = if p a then Memory.lookup m a else none := by
  induction m with
  | nil => simp [Memory.lookup]
  | cons e m ih =>
    obtain ⟨k, c⟩ := e
    by_cases hk : k = a
    · subst hk
      by_cases hp : p k <;> simp [List.filter, hp, Memory.lookup, ih]
    · by_cases hp : p k <;> simp [List.filter, hp, Memory.lookup, hk, ih]

theorem Memory.lookup_append (m n : Memory) (a : Nat) :
    Memory.lookup (m ++ n) a = (Memory.lookup m a).or (Memory.lookup n a) := by
  induction m with
  | nil => simp [Memory.lookup]
  | cons e m ih =>
    obtain ⟨k, c⟩ := e
    by_cases hk : k = a <;> simp [Memory.lookup, hk, ih]

/-- What memory reads as after `LoadProgram` (70_reset_and_hazards.md R204). -/
theorem Memory.read_loaded (g : Glyphs) (m : Memory) (bs : List Byte) (a : Nat) :
    Memory.read g (Memory.lowRegion m ++ Memory.ofBytes g progBase bs) a =
      if a < 0x050 then Memory.blank g a
      else if a < progBase then Memory.read g m a
      else (bs[a - progBase]?).getD (Memory.blank g a) := by
  have hr := Memory.read_ofBytes g progBase a bs
  have hl := Memory.lookup_filter m (fun k => decide (0x050 ≤ k) && decide (k < progBase)) a
  simp only [Memory.read, Memory.lookup_append, Memory.lowRegion, hl] at hr ⊢
  by_cases h1 : a < 0x050
  · rw [Memory.read_ofBytes_below g (by simp only [progBase]; omega)]
    simp [h1, show ¬ 0x050 ≤ a by omega]
  · by_cases h2 : a < progBase
    · rw [Memory.read_ofBytes_below g h2]
      simp [h1, h2, show 0x050 ≤ a by omega]
    · simp only [h1, h2, decide_false, Bool.and_false, if_false, Option.none_or, Bool.false_eq_true]
      rw [hr, if_pos (by omega)]

end Sys2Proof.Machine
end

