-- ==== Sys2Proof/Laws/Ops.lean ====
section
/-! SUPPORT. One lemma for each shared operation that says everything it can do, which proofs cite in place of unfolding it. -/

namespace Sys2Proof.Machine

/-! ### The program counter -/

theorem advance_of_le {k : Nat} {s : State} (h : s.pc.toNat + k ≤ 0xFFF) :
    advance k s = .next (s.setPc (s.pc + BitVec.ofNat 12 k)) := if_pos h

theorem advance_of_gt {k : Nat} {s : State} (h : 0xFFF < s.pc.toNat + k) : advance k s = .fault .pcOutOfRange :=
  if_neg (by omega)

theorem advance_eq_next {k : Nat} {s t : State} :
    advance k s = .next t ↔ s.pc.toNat + k ≤ 0xFFF ∧ t = s.setPc (s.pc + BitVec.ofNat 12 k) := by
  unfold advance raise
  split
  · next h => simp [h, eq_comm]
  · next h => simp [h]

theorem toNat_advanced {a : Addr} {k : Nat} (h : a.toNat + k ≤ 0xFFF) : (a + BitVec.ofNat 12 k).toNat = a.toNat + k := by
  rw [BitVec.toNat_add, BitVec.toNat_ofNat]
  omega

theorem skipIf_eq_next {c : Bool} {s t : State} :
    skipIf c s = .next t ↔
      s.pc.toNat + (if c then 4 else 2) ≤ 0xFFF ∧ t = s.setPc (s.pc + BitVec.ofNat 12 (if c then 4 else 2)) := by
  cases c <;> simp [skipIf, advance_eq_next]

/-! ### Operands -/

theorem jumpTarget_eq_some {t : Nat} {a : Addr} :
    jumpTarget t = some a ↔ 0x200 ≤ t ∧ t ≤ 0xFFF ∧ a = BitVec.ofNat 12 t := by
  unfold jumpTarget
  split
  · next h => simp [h.1, h.2, eq_comm]
  · next h => simp only [reduceCtorEq, false_iff]; omega

theorem jumpTarget_eq_none {t : Nat} : jumpTarget t = none ↔ t < 0x200 ∨ 0xFFF < t := by
  unfold jumpTarget
  split <;> simp <;> omega

theorem jumpTarget_addr {a : Addr} (h : 0x200 ≤ a.toNat) : jumpTarget a.toNat = some a := by
  rw [jumpTarget_eq_some]
  have := a.isLt
  exact ⟨h, by omega, by simp⟩

theorem jumpTarget_addr_low {a : Addr} (h : a.toNat < 0x200) : jumpTarget a.toNat = none :=
  jumpTarget_eq_none.2 (.inl h)

theorem keyIndex_eq_some {b : Byte} {k : Reg} : keyIndex b = some k ↔ b.toNat = k.val := by
  unfold keyIndex
  split
  · next h => simp [Fin.ext_iff]
  · next h => simp only [reduceCtorEq, false_iff]; omega

theorem keyIndex_eq_none {b : Byte} : keyIndex b = none ↔ 0xF < b.toNat := by
  unfold keyIndex
  split <;> simp <;> omega

theorem storeRangeOk_iff {s : State} {last : Nat} :
    storeRangeOk s last = true ↔ 0x200 ≤ s.i.toNat ∧ s.i.toNat + last ≤ 0xFFF := by
  simp [storeRangeOk]

theorem loadRangeOk_iff {s : State} {last : Nat} : loadRangeOk s last = true ↔ s.i.toNat + last ≤ 0xFFF := by
  simp [loadRangeOk]

theorem spriteReadOk_iff {s : State} {n : Fin 16} :
    spriteReadOk s n = true ↔ (0 < n.val → s.i.toNat + n.val ≤ 0x1000) := by
  simp only [spriteReadOk, Bool.or_eq_true, decide_eq_true_eq]; omega

theorem spriteBoxOk_iff {s : State} {x y : Reg} {n : Fin 16} :
    spriteBoxOk s x y n = true ↔ (0 < n.val → (s.reg x).toNat + 7 ≤ 63 ∧ (s.reg y).toNat + n.val ≤ 32) := by
  simp only [spriteBoxOk, Bool.or_eq_true, Bool.and_eq_true, decide_eq_true_eq]; omega

@[simp] theorem length_bytesFromI (s : State) (n : Nat) : (bytesFromI s n).length = n := by simp [bytesFromI]

theorem getElem_bytesFromI (s : State) {n k : Nat} (h : k < (bytesFromI s n).length) :
    (bytesFromI s n)[k] = s.readByte (s.i.toNat + k) := by simp [bytesFromI]

@[simp] theorem length_regsUpTo (s : State) (x : Reg) : (regsUpTo s x).length = x.val + 1 := by
  have := x.isLt
  simp only [regsUpTo, List.length_take, Vector.length_toList]; omega

theorem getElem_regsUpTo (s : State) (x k : Reg) (h : k.val < (regsUpTo s x).length) :
    (regsUpTo s x)[k.val] = s.reg k := by
  simp [regsUpTo, State.reg]

@[simp] theorem length_decimalDigits (b : Byte) : (decimalDigits b).length = 3 := rfl

theorem getElem_foldl_setIfInBounds (f : Nat → Byte) (v : Vector Byte 16) (n : Nat) (k : Reg) :
    ((List.range n).foldl (fun w j => w.setIfInBounds j (f j)) v)[k] = if k.val < n then f k.val else v[k] := by
  induction n with
  | zero => simp
  | succ n ih =>
    simp only [Fin.getElem_fin] at ih ⊢
    simp only [List.range_succ, List.foldl_append, List.foldl_cons, List.foldl_nil]
    rw [Vector.getElem_setIfInBounds]
    by_cases h : n = k.val
    · subst h; simp
    · rw [if_neg h, ih]
      by_cases h2 : k.val < n
      · simp [h2, show k.val < n + 1 by omega]
      · simp [h2, show ¬ k.val < n + 1 by omega]

theorem getElem_loadedRegs (s : State) (x k : Reg) :
    (loadedRegs s x)[k] = if k.val ≤ x.val then s.readByte (s.i.toNat + k.val) else s.reg k := by
  rw [loadedRegs, getElem_foldl_setIfInBounds (fun j => s.readByte (s.i.toNat + j))]
  simp only [Nat.lt_succ_iff, State.reg]

theorem firstPressed_eq_some {keys : Keys} {k : Reg} :
    firstPressed keys = some k ↔ keys[k] = true ∧ ∀ j : Reg, j < k → keys[j] = false := by
  unfold firstPressed
  rw [List.find?_eq_some_iff_getElem]
  constructor
  · rintro ⟨hk, i, hi, hik, hlt⟩
    refine ⟨hk, fun j hj => ?_⟩
    have hi' : i = k.val := by simpa [Fin.ext_iff] using hik
    have := hlt j.val (by simpa [hi'] using hj)
    simpa using this
  · rintro ⟨hk, hlt⟩
    refine ⟨hk, k.val, by simp, by simp, fun j hj => ?_⟩
    have := hlt ⟨j, by omega⟩ (by simpa [Fin.lt_def] using hj)
    simpa using this

theorem firstPressed_eq_none {keys : Keys} : firstPressed keys = none ↔ ∀ k : Reg, keys[k] = false := by
  simp [firstPressed, List.find?_eq_none]

/-! ### Call stack -/

theorem State.push_eq_none {s : State} {ret : Addr} : s.push ret = none ↔ s.sp.val = 16 := by
  have := s.sp.isLt
  unfold State.push
  split <;> simp <;> omega

theorem State.push_eq_some {s t : State} {ret : Addr} :
    s.push ret = some t ↔ ∃ h : s.sp.val < 16,
      t = { s with stack := s.stack.set s.sp.val ret, sp := ⟨s.sp.val + 1, by omega⟩ } := by
  unfold State.push
  split
  · next h => simp [h, eq_comm]
  · next h => simp [h]

theorem State.pop_eq_none {s : State} : s.pop = none ↔ s.sp.val = 0 := by
  unfold State.pop
  split <;> simp_all

theorem State.pop_eq_some {s t : State} {ret : Addr} :
    s.pop = some (ret, t) ↔ ∃ _h : s.sp.val ≠ 0,
      ret = s.stack[s.sp.val - 1]'(by omega) ∧ t = { s with sp := ⟨s.sp.val - 1, by omega⟩ } := by
  unfold State.pop
  split
  · next h => simp [h]
  · next h => simp [h, eq_comm]

/-! ### Sound edges -/

theorem soundOn_mem_soundEdges {old new : Byte} : Event.soundOn ∈ soundEdges old new ↔ old = 0#8 ∧ new ≠ 0#8 := by
  unfold soundEdges
  split
  · next h => simp [h]
  · next h =>
    split <;> simp [h]

theorem soundOff_mem_soundEdges {old new : Byte} : Event.soundOff ∈ soundEdges old new ↔ old ≠ 0#8 ∧ new = 0#8 := by
  unfold soundEdges
  split
  · next h => simp [h]
  · split
    · next h => simp [h]
    · next h => simp [h]

theorem soundEdges_self (b : Byte) : soundEdges b b = [] := by
  unfold soundEdges
  split
  · next h => exact absurd h.1 h.2
  · split
    · next h => exact absurd h.2 h.1
    · rfl

/-! ### The schedule -/

theorem nextOp_nil {s : State} (h : s.schedule = []) : nextOp s = (.step, s) := by simp [nextOp, h]

theorem nextOp_cons {s : State} {op : HostOp} {rest : List HostOp} (h : s.schedule = op :: rest) :
    nextOp s = (op, s.setSchedule rest) := by simp [nextOp, h]

end Sys2Proof.Machine
end

