-- ==== Sys2Proof/Laws/PerInstr.lean ====
section
/-! SUPPORT. The family OpcodeRow: every instruction's word matches its row of the opcode table under the row's mask, and its format is the
row's (spec/30_encoding.md R74, R76). -/

namespace Sys2Proof.Laws.OpcodeRow

/-- The word of `i` lies in the row of `i`, and the row's format is the format of `i`. -/
def Statement (i : Instr) : Prop := encode i &&& i.row.mask = i.row.pattern ∧ i.row.format = i.format

theorem and_F000 (w : Word) : w &&& 0xF000#16 = (w >>> 12) <<< 12 := by
  apply BitVec.eq_of_getLsbD_eq
  intro k hk
  interval_cases k <;> simp

theorem and_F00F (w : Word) : w &&& 0xF00F#16 = ((w >>> 12) <<< 12) ||| ((w <<< 12) >>> 12) := by
  apply BitVec.eq_of_getLsbD_eq
  intro k hk
  interval_cases k <;> simp

theorem and_F0FF (w : Word) : w &&& 0xF0FF#16 = ((w >>> 12) <<< 12) ||| ((w <<< 8) >>> 8) := by
  apply BitVec.eq_of_getLsbD_eq
  intro k hk
  interval_cases k <;> simp

/-- Under F000 only the type nibble remains. -/
theorem ofNat_and_F000 (p k : Nat) (hk : k < 4096) :
    BitVec.ofNat 16 (p * 4096 + k) &&& 0xF000#16 = BitVec.ofNat 16 (p * 4096) := by
  rw [and_F000]
  apply BitVec.eq_of_toNat_eq
  simp only [BitVec.toNat_shiftLeft, BitVec.toNat_ushiftRight, BitVec.toNat_ofNat, Nat.shiftRight_eq_div_pow, Nat.shiftLeft_eq]
  omega

/-- Under F00F the type and N nibbles remain. -/
theorem ofNat_and_F00F (p k n : Nat) (hp : p < 16) (hk : k < 256) (hn : n < 16) :
    BitVec.ofNat 16 (p * 4096 + n + k * 16) &&& 0xF00F#16 = BitVec.ofNat 16 (p * 4096 + n) := by
  rw [and_F00F]
  apply BitVec.eq_of_toNat_eq
  simp only [BitVec.toNat_or, BitVec.toNat_shiftLeft, BitVec.toNat_ushiftRight, BitVec.toNat_ofNat, Nat.shiftRight_eq_div_pow,
    Nat.shiftLeft_eq]
  rw [show (p * 4096 + n + k * 16) % 2 ^ 16 / 2 ^ 12 * 2 ^ 12 % 2 ^ 16 = 2 ^ 12 * p by omega,
    show (p * 4096 + n + k * 16) % 2 ^ 16 * 2 ^ 12 % 2 ^ 16 / 2 ^ 12 = n by omega,
    ← Nat.two_pow_add_eq_or_of_lt (by omega)]
  omega

/-- Under F0FF the type nibble and NN remain. -/
theorem ofNat_and_F0FF (p k n : Nat) (hp : p < 16) (hk : k < 16) (hn : n < 256) :
    BitVec.ofNat 16 (p * 4096 + n + k * 256) &&& 0xF0FF#16 = BitVec.ofNat 16 (p * 4096 + n) := by
  rw [and_F0FF]
  apply BitVec.eq_of_toNat_eq
  simp only [BitVec.toNat_or, BitVec.toNat_shiftLeft, BitVec.toNat_ushiftRight, BitVec.toNat_ofNat, Nat.shiftRight_eq_div_pow,
    Nat.shiftLeft_eq]
  rw [show (p * 4096 + n + k * 256) % 2 ^ 16 / 2 ^ 12 * 2 ^ 12 % 2 ^ 16 = 2 ^ 12 * p by omega,
    show (p * 4096 + n + k * 256) % 2 ^ 16 * 2 ^ 8 % 2 ^ 16 / 2 ^ 8 = n by omega,
    ← Nat.two_pow_add_eq_or_of_lt (by omega)]
  omega

theorem operandsA_lt (a : Addr) : operandsA a < 4096 := a.isLt

theorem operandsI_lt (x : Reg) (nn : Byte) : operandsI x nn < 4096 := by
  have := x.isLt; have := nn.isLt
  simp only [operandsI]; omega

theorem operandsD_lt (x y : Reg) (n : Fin 16) : operandsD x y n < 4096 := by
  have := x.isLt; have := y.isLt; have := n.isLt
  simp only [operandsD]; omega

theorem operandsR_eq (x y : Reg) : operandsR x y = (x.val * 16 + y.val) * 16 := by
  simp only [operandsR]; omega

theorem operandsR_lt (x y : Reg) : x.val * 16 + y.val < 256 := by
  have := x.isLt; have := y.isLt
  omega

/-! One lemma per constructor. -/

theorem cls : Statement (.cls) := ⟨rfl, rfl⟩

theorem ret : Statement (.ret) := ⟨rfl, rfl⟩

theorem sys (nnn : Addr) : Statement (.sys nnn) := ⟨ofNat_and_F000 0 _ (operandsA_lt nnn), rfl⟩

theorem jp (nnn : Addr) : Statement (.jp nnn) := ⟨ofNat_and_F000 1 _ (operandsA_lt nnn), rfl⟩

theorem call (nnn : Addr) : Statement (.call nnn) := ⟨ofNat_and_F000 2 _ (operandsA_lt nnn), rfl⟩

theorem seByte (x : Reg) (nn : Byte) : Statement (.seByte x nn) := ⟨ofNat_and_F000 3 _ (operandsI_lt x nn), rfl⟩

theorem sneByte (x : Reg) (nn : Byte) : Statement (.sneByte x nn) := ⟨ofNat_and_F000 4 _ (operandsI_lt x nn), rfl⟩

theorem seReg (x y : Reg) : Statement (.seReg x y) := ⟨by
  simpa [encode, Instr.row, Instr.operands, operandsR_eq] using ofNat_and_F00F 5 _ 0 (by decide) (operandsR_lt x y) (by decide), rfl⟩

theorem ldByte (x : Reg) (nn : Byte) : Statement (.ldByte x nn) := ⟨ofNat_and_F000 6 _ (operandsI_lt x nn), rfl⟩

theorem addByte (x : Reg) (nn : Byte) : Statement (.addByte x nn) := ⟨ofNat_and_F000 7 _ (operandsI_lt x nn), rfl⟩

theorem ldReg (x y : Reg) : Statement (.ldReg x y) := ⟨by
  simpa [encode, Instr.row, Instr.operands, operandsR_eq] using ofNat_and_F00F 8 _ 0 (by decide) (operandsR_lt x y) (by decide), rfl⟩

theorem orReg (x y : Reg) : Statement (.orReg x y) := ⟨by
  simpa [encode, Instr.row, Instr.operands, operandsR_eq] using ofNat_and_F00F 8 _ 1 (by decide) (operandsR_lt x y) (by decide), rfl⟩

theorem andReg (x y : Reg) : Statement (.andReg x y) := ⟨by
  simpa [encode, Instr.row, Instr.operands, operandsR_eq] using ofNat_and_F00F 8 _ 2 (by decide) (operandsR_lt x y) (by decide), rfl⟩

theorem xorReg (x y : Reg) : Statement (.xorReg x y) := ⟨by
  simpa [encode, Instr.row, Instr.operands, operandsR_eq] using ofNat_and_F00F 8 _ 3 (by decide) (operandsR_lt x y) (by decide), rfl⟩

theorem addReg (x y : Reg) : Statement (.addReg x y) := ⟨by
  simpa [encode, Instr.row, Instr.operands, operandsR_eq] using ofNat_and_F00F 8 _ 4 (by decide) (operandsR_lt x y) (by decide), rfl⟩

theorem sub (x y : Reg) : Statement (.sub x y) := ⟨by
  simpa [encode, Instr.row, Instr.operands, operandsR_eq] using ofNat_and_F00F 8 _ 5 (by decide) (operandsR_lt x y) (by decide), rfl⟩

theorem shr (x y : Reg) : Statement (.shr x y) := ⟨by
  simpa [encode, Instr.row, Instr.operands, operandsR_eq] using ofNat_and_F00F 8 _ 6 (by decide) (operandsR_lt x y) (by decide), rfl⟩

theorem subn (x y : Reg) : Statement (.subn x y) := ⟨by
  simpa [encode, Instr.row, Instr.operands, operandsR_eq] using ofNat_and_F00F 8 _ 7 (by decide) (operandsR_lt x y) (by decide), rfl⟩

theorem shl (x y : Reg) : Statement (.shl x y) := ⟨by
  simpa [encode, Instr.row, Instr.operands, operandsR_eq] using ofNat_and_F00F 8 _ 14 (by decide) (operandsR_lt x y) (by decide), rfl⟩

theorem sneReg (x y : Reg) : Statement (.sneReg x y) := ⟨by
  simpa [encode, Instr.row, Instr.operands, operandsR_eq] using ofNat_and_F00F 9 _ 0 (by decide) (operandsR_lt x y) (by decide), rfl⟩

theorem ldI (nnn : Addr) : Statement (.ldI nnn) := ⟨ofNat_and_F000 10 _ (operandsA_lt nnn), rfl⟩

theorem jpV0 (nnn : Addr) : Statement (.jpV0 nnn) := ⟨ofNat_and_F000 11 _ (operandsA_lt nnn), rfl⟩

theorem rnd (x : Reg) (nn : Byte) : Statement (.rnd x nn) := ⟨ofNat_and_F000 12 _ (operandsI_lt x nn), rfl⟩

theorem drw (x y : Reg) (n : Fin 16) : Statement (.drw x y n) := ⟨ofNat_and_F000 13 _ (operandsD_lt x y n), rfl⟩

theorem skp (x : Reg) : Statement (.skp x) := ⟨ofNat_and_F0FF 14 x.val 158 (by decide) x.isLt (by decide), rfl⟩

theorem sknp (x : Reg) : Statement (.sknp x) := ⟨ofNat_and_F0FF 14 x.val 161 (by decide) x.isLt (by decide), rfl⟩

theorem ldVxDt (x : Reg) : Statement (.ldVxDt x) := ⟨ofNat_and_F0FF 15 x.val 7 (by decide) x.isLt (by decide), rfl⟩

theorem ldVxK (x : Reg) : Statement (.ldVxK x) := ⟨ofNat_and_F0FF 15 x.val 10 (by decide) x.isLt (by decide), rfl⟩

theorem ldDtVx (x : Reg) : Statement (.ldDtVx x) := ⟨ofNat_and_F0FF 15 x.val 21 (by decide) x.isLt (by decide), rfl⟩

theorem ldStVx (x : Reg) : Statement (.ldStVx x) := ⟨ofNat_and_F0FF 15 x.val 24 (by decide) x.isLt (by decide), rfl⟩

theorem addI (x : Reg) : Statement (.addI x) := ⟨ofNat_and_F0FF 15 x.val 30 (by decide) x.isLt (by decide), rfl⟩

theorem ldF (x : Reg) : Statement (.ldF x) := ⟨ofNat_and_F0FF 15 x.val 41 (by decide) x.isLt (by decide), rfl⟩

theorem ldB (x : Reg) : Statement (.ldB x) := ⟨ofNat_and_F0FF 15 x.val 51 (by decide) x.isLt (by decide), rfl⟩

theorem storeRegs (x : Reg) : Statement (.storeRegs x) := ⟨ofNat_and_F0FF 15 x.val 85 (by decide) x.isLt (by decide), rfl⟩

theorem loadRegs (x : Reg) : Statement (.loadRegs x) := ⟨ofNat_and_F0FF 15 x.val 101 (by decide) x.isLt (by decide), rfl⟩

end Sys2Proof.Laws.OpcodeRow
end

