-- ==== Sys2Proof/Laws/Step.lean ====
section
/-! SUPPORT. What one step can do, said once: the operation the schedule names, and what each operation answers. -/

namespace Sys2Proof.Machine

theorem step_of_nil {s : State} (h : s.schedule = []) : step s = operate .step s := by
  simp [step, nextOp_nil h]

theorem step_of_cons {s : State} {op : HostOp} {rest : List HostOp} (h : s.schedule = op :: rest) :
    step s = operate op (s.setSchedule rest) := by
  simp [step, nextOp_cons h]

/-- A step is an operation on the state, or on the state with its first scheduled operation taken off. -/
theorem step_eq_operate (s : State) : ∃ op rest, step s = operate op (s.setSchedule rest) := by
  cases h : s.schedule with
  | nil =>
    refine ⟨.step, [], ?_⟩
    rw [step_of_nil h]
    congr 1
    rw [← h]; rfl
  | cons op rest => exact ⟨op, rest, step_of_cons h⟩

theorem operate_step_awaiting {s : State} {t : Reg} (h : s.mode = .awaitingKey t) :
    operate .step s = .next (keyPoll t s) := by
  simp [operate, operateWith, stepWith, h]

theorem operate_step_running {s : State} (h : s.mode = .running) :
    operate .step s = match fetchInstr s with
      | .error f => .fault f
      | .ok i => exec i s := by
  cases h' : fetchInstr s <;> simp [operate, operateWith, stepWith, h, h', raise]

theorem fetchInstr_eq_ok {s : State} {i : Instr} :
    fetchInstr s = .ok i ↔ s.pc.toNat + 1 ≤ 0xFFF ∧
      decodeWord (wordOfBytes (s.readByte s.pc.toNat) (s.readByte (s.pc.toNat + 1))) = .ok i := by
  unfold fetchInstr fetchWord
  split
  · next h => split at h <;> simp_all
  · next w h =>
    split at h
    · next hle =>
      simp only [Option.some.injEq] at h
      subst h
      split
      · next j hj => simp [hj, hle]
      · next e he => simp [he]
    · simp at h

/-- Everything `operate` can answer with a next state. -/
theorem operate_cases {op : HostOp} {s t : State} (h : operate op s = .next t) :
    (op = .step ∧ ∃ r, s.mode = .awaitingKey r ∧ t = keyPoll r s) ∨
    (op = .step ∧ s.mode = .running ∧ ∃ i, fetchInstr s = .ok i ∧ exec i s = .next t) ∨
    (op = .tick ∧ t = hostTick s) ∨
    (∃ k, op = .setKeys k ∧ t = hostSetKeys k s) ∨
    (∃ bs, op = .loadProgram bs ∧ hostLoadProgram bs s = .next t) ∨
    (op = .reset ∧ t = hostReset s) := by
  cases op with
  | step =>
    cases hm : s.mode with
    | awaitingKey r =>
      rw [operate_step_awaiting hm] at h
      exact .inl ⟨rfl, r, rfl, by simpa using h.symm⟩
    | running =>
      rw [operate_step_running hm] at h
      split at h
      · simp at h
      · next i hi => exact .inr (.inl ⟨rfl, rfl, i, hi, h⟩)
  | tick => exact .inr (.inr (.inl ⟨rfl, by simpa [operate, operateWith] using h.symm⟩))
  | setKeys k => exact .inr (.inr (.inr (.inl ⟨k, rfl, by simpa [operate, operateWith] using h.symm⟩)))
  | loadProgram bs => exact .inr (.inr (.inr (.inr (.inl ⟨bs, rfl, h⟩))))
  | reset => exact .inr (.inr (.inr (.inr (.inr ⟨rfl, by simpa [operate, operateWith] using h.symm⟩))))

theorem hostLoadProgram_eq_next {bs : List Byte} {s t : State} :
    hostLoadProgram bs s = .next t ↔ bs.length ≤ maxProg ∧
      t = (s.setMem (Memory.lowRegion s.mem ++ Memory.ofBytes s.config.glyphs progBase bs)).setImg bs := by
  unfold hostLoadProgram
  split
  · next h => simp [h, eq_comm]
  · next h => simp [h]

end Sys2Proof.Machine
end

