-- ==== Sys2Proof/Tests/Slice0.lean ====
section
/-! SUPPORT. The model's own tests. The words of the decode tests are written out bit by bit from the formats of spec/30_encoding.md R73 and the
values of R76; the expected results are the vectors T1 to T177 of spec/95_test_vectors.md. The witnesses show states and operands that meet the hypotheses of the
statements. -/

namespace Sys2Proof.Tests

open Sys2Proof Sys2Proof.Machine

/-! ### Helpers -/

/-- The launch state. -/
def launch : State := State.reset

/-- Registers set by a list. -/
def withRegs (l : List (Reg × Byte)) (s : State) : State := l.foldl (fun s p => s.setReg p.1 p.2) s

/-- One observation of the state that a word leaves when it is fetched at PC. -/
def after {α : Type} (w : Nat) (s : State) (f : State → α) : Option α :=
  match step (s.withFetchWord 16 w) with
  | .next t => some (f t)
  | .fault _ => none
  | .refused _ => none

/-- One observation of the state that a host operation leaves. -/
def afterOp {α : Type} (op : HostOp) (s : State) (f : State → α) : Option α :=
  match operate op s with
  | .next t => some (f t)
  | .fault _ => none
  | .refused _ => none

/-- The error that a word fetched at PC raises. -/
def errorOf (w : Nat) (s : State) : Option Fault :=
  match step (s.withFetchWord 16 w) with
  | .next _ => none
  | .fault f => some f
  | .refused _ => none

/-- The operation answers a next state. -/
def completes : Result → Bool
  | .next _ => true
  | .fault _ => false
  | .refused _ => false

/-- Keys pressed by a list. -/
def keysDown (l : List Reg) : Keys := Vector.ofFn fun k => l.contains k

/-- The state with another edge policy. -/
def withEdge (e : DrawEdge) (s : State) : State := { s with config := { s.config with drawEdge := e } }

/-- The state with SHIFT_Y15_FAULT true. -/
def withShiftFault (s : State) : State := { s with config := { s.config with shiftY15Fault := true } }

/-- T121's setting: sprite bytes at 0x300, V1 the column, V2 the row. -/
def sprite (col row : Byte) (bs : List Byte) : State :=
  ((withRegs [(1, col), (2, row)] launch).setI 0x300#12).writeBytes 0x300 bs

/-! ### Well-formedness and decoding -/

theorem test_wf_sys_cls_refused : (Instr.sys 0x0E0#12).wellFormed = false := by decide
theorem test_wf_sys_ret_refused : (Instr.sys 0x0EE#12).wellFormed = false := by decide
theorem test_wf_sys_neighbours : (Instr.sys 0x0E1#12).wellFormed = true ∧ (Instr.sys 0x0EF#12).wellFormed = true := by decide

theorem test_decode_format_Z :
    decodeWord 0b0000000011100000#16 = .ok .cls ∧ decodeWord 0b0000000011101110#16 = .ok .ret := by decide

theorem test_decode_format_A :
    decodeWord 0b0000000100100011#16 = .ok (.sys 0x123#12) ∧ decodeWord 0b0001001000110100#16 = .ok (.jp 0x234#12) ∧
    decodeWord 0b0010001100000000#16 = .ok (.call 0x300#12) ∧ decodeWord 0b1010001011110000#16 = .ok (.ldI 0x2F0#12) ∧
    decodeWord 0b1011111100000001#16 = .ok (.jpV0 0xF01#12) := by decide

theorem test_decode_format_I :
    decodeWord 0b0011001100101010#16 = .ok (.seByte 3 0x2A#8) ∧ decodeWord 0b0100001100101011#16 = .ok (.sneByte 3 0x2B#8) ∧
    decodeWord 0b0110101000010010#16 = .ok (.ldByte 10 0x12#8) ∧ decodeWord 0b0111101000000101#16 = .ok (.addByte 10 0x05#8) ∧
    decodeWord 0b1100001100001111#16 = .ok (.rnd 3 0x0F#8) := by decide

theorem test_decode_format_R :
    decodeWord 0b0101000100100000#16 = .ok (.seReg 1 2) ∧ decodeWord 0b1001000100100000#16 = .ok (.sneReg 1 2) ∧
    decodeWord 0b1000000100100000#16 = .ok (.ldReg 1 2) ∧ decodeWord 0b1000000100100001#16 = .ok (.orReg 1 2) ∧
    decodeWord 0b1000000100100010#16 = .ok (.andReg 1 2) ∧ decodeWord 0b1000000100100011#16 = .ok (.xorReg 1 2) ∧
    decodeWord 0b1000000100100100#16 = .ok (.addReg 1 2) ∧ decodeWord 0b1000000100100101#16 = .ok (.sub 1 2) ∧
    decodeWord 0b1000001101110110#16 = .ok (.shr 3 7) ∧ decodeWord 0b1000000100100111#16 = .ok (.subn 1 2) ∧
    decodeWord 0b1000001101111110#16 = .ok (.shl 3 7) := by decide

theorem test_decode_format_D : decodeWord 0b1101000100101111#16 = .ok (.drw 1 2 15) := by decide

theorem test_decode_format_U :
    decodeWord 0b1110010010011110#16 = .ok (.skp 4) ∧ decodeWord 0b1110010010100001#16 = .ok (.sknp 4) ∧
    decodeWord 0b1111010100000111#16 = .ok (.ldVxDt 5) ∧ decodeWord 0b1111001100001010#16 = .ok (.ldVxK 3) ∧
    decodeWord 0b1111010100010101#16 = .ok (.ldDtVx 5) ∧ decodeWord 0b1111010100011000#16 = .ok (.ldStVx 5) ∧
    decodeWord 0b1111001000011110#16 = .ok (.addI 2) ∧ decodeWord 0b1111000000101001#16 = .ok (.ldF 0) ∧
    decodeWord 0b1111000000110011#16 = .ok (.ldB 0) ∧ decodeWord 0b1111001001010101#16 = .ok (.storeRegs 2) ∧
    decodeWord 0b1111010001100101#16 = .ok (.loadRegs 4) := by decide

/-- T10, the words with no instruction, by the name of their group. -/
theorem test_decode_illegal :
    decodeWord 0x5121#16 = .error .noMinor5 ∧ decodeWord 0x9121#16 = .error .noMinor9 ∧
    decodeWord 0x8128#16 = .error .noMinor8 ∧ decodeWord 0x812F#16 = .error .noMinor8 ∧
    decodeWord 0xE19F#16 = .error .noMinorE ∧ decodeWord 0xE1A0#16 = .error .noMinorE ∧
    decodeWord 0xF100#16 = .error .noMinorF ∧ decodeWord 0xF1FF#16 = .error .noMinorF := by decide

theorem test_decode_short : decodeBytes [] = .error .truncated ∧ decodeBytes [0x12#8] = .error .truncated := by decide

theorem test_encode_words :
    encode (.drw 1 2 15) = 0xD12F#16 ∧ encode (.loadRegs 4) = 0xF465#16 ∧ encode (.shl 3 7) = 0x837E#16 ∧
    encode (.call 0x300#12) = 0x2300#16 ∧ encode (.ldByte 10 0x12#8) = 0x6A12#16 := by decide

theorem test_decodeTableWord : decodeTableWord 16 0xD12F = some (.drw 1 2 15) ∧ decodeTableWord 16 0x812F = none := by decide

theorem test_withFetchWord :
    fetchWord (launch.withFetchWord 16 0xD12F) = some 0xD12F#16 ∧ (launch.withFetchWord 16 0xD12F).memWf = true := by decide

theorem test_withFetchWord_everywhere :
    fetchWord ({ launch with pc := 0xFFF#12, mode := .awaitingKey 3 }.withFetchWord 16 0x1234) = some 0x1234#16 ∧
    after 0x1234 { launch with pc := 0xFFF#12, mode := .awaitingKey 3, schedule := [.tick] } (·.pc) = some 0x234#12 := by decide

/-! ### One step of each instruction, from the vectors -/

theorem test_T2_sys : errorOf 0x0000 launch = some .illegalInstruction := by decide
theorem test_T10_sys : errorOf 0x0123 launch = some .illegalInstruction := by decide
theorem test_T120_cls : after 0x00E0 { launch with fb := launch.fb.flip 63 31 } (fun t => (t.fb, t.events, t.pc)) =
    some (Vector.replicate 32 0#64, [.drawNotify], 0x202#12) := by decide
theorem test_T24_ret : errorOf 0x00EE launch = some .stackUnderflow := by decide
theorem test_T30_ret : after 0x00EE { launch with sp := 1, stack := launch.stack.set 0 0xFFF#12 } (fun t => (t.pc, t.sp)) =
    some (0xFFF#12, 0) := by decide
theorem test_T1_jp : after 0x1234 launch (·.pc) = some 0x234#12 := by decide
theorem test_T21_jp : errorOf 0x11FF launch = some .invalidJumpTarget := by decide
theorem test_T26_call : after 0x2300 { launch with sp := 15 } (fun t => (t.stack[15], t.sp, t.pc)) =
    some (0x202#12, 16, 0x300#12) := by decide
theorem test_T27_call : errorOf 0x2100 { launch with sp := 16 } = some .invalidJumpTarget ∧
    errorOf 0x2300 { launch with sp := 16, pc := 0xFFE#12 } = some .stackOverflow ∧
    errorOf 0x2300 { launch with pc := 0xFFE#12 } = some .pcOutOfRange := by decide
theorem test_T38_se : after 0x332A (withRegs [(3, 0x2A#8)] { launch with pc := 0x210#12 }) (·.pc) = some 0x214#12 ∧
    after 0x332B (withRegs [(3, 0x2A#8)] { launch with pc := 0x210#12 }) (·.pc) = some 0x212#12 := by decide
theorem test_T6_T7_se : errorOf 0x3300 { launch with pc := 0xFFC#12 } = some .pcOutOfRange ∧
    after 0x3300 (withRegs [(3, 1#8)] { launch with pc := 0xFFC#12 }) (·.pc) = some 0xFFE#12 := by decide
theorem test_T39_sne : after 0x432A (withRegs [(3, 0x2A#8)] { launch with pc := 0x210#12 }) (·.pc) = some 0x212#12 ∧
    after 0x432B (withRegs [(3, 0x2A#8)] { launch with pc := 0x210#12 }) (·.pc) = some 0x214#12 := by decide
theorem test_T40_se_sne : after 0x5120 (withRegs [(1, 7#8), (2, 7#8)] launch) (·.pc) = some 0x204#12 ∧
    after 0x9120 (withRegs [(1, 7#8), (2, 7#8)] launch) (·.pc) = some 0x202#12 := by decide
theorem test_T41_se_sne : after 0x5120 (withRegs [(1, 7#8), (2, 8#8)] launch) (·.pc) = some 0x202#12 ∧
    after 0x9120 (withRegs [(1, 7#8), (2, 8#8)] launch) (·.pc) = some 0x204#12 := by decide
theorem test_T34_T36_jpV0 : after 0xBF00 (withRegs [(0, 0xFF#8)] launch) (·.pc) = some 0xFFF#12 ∧
    after 0xB1FF (withRegs [(0, 1#8)] launch) (·.pc) = some 0x200#12 := by decide
theorem test_T33_T37_jpV0 : errorOf 0xBF01 (withRegs [(0, 0xFF#8)] launch) = some .invalidJumpTarget ∧
    errorOf 0xB1FF (withRegs [(1, 9#8)] launch) = some .invalidJumpTarget := by decide

theorem test_T50_ldByte : after 0x6FAB launch (·.reg vf) = some 0xAB#8 := by decide
theorem test_T51_addByte : after 0x7101 (withRegs [(1, 0xFF#8)] launch) (fun t => (t.reg 1, t.reg vf)) = some (0#8, 0#8) := by decide
theorem test_T53_ldReg : after 0x8120 (withRegs [(2, 0x5C#8)] launch) (fun t => (t.reg 1, t.reg 2)) = some (0x5C#8, 0x5C#8) := by decide
theorem test_T54_or : after 0x8121 (withRegs [(1, 0xF0#8), (2, 0x0C#8), (15, 0x55#8)] launch) (fun t => (t.reg 1, t.reg vf)) =
    some (0xFC#8, 0x55#8) := by decide
theorem test_T55_and : after 0x8122 (withRegs [(1, 0xF0#8), (2, 0x3C#8), (15, 0x55#8)] launch) (fun t => (t.reg 1, t.reg vf)) =
    some (0x30#8, 0x55#8) := by decide
theorem test_T56_xor : after 0x8123 (withRegs [(1, 0xF0#8), (2, 0x3C#8), (15, 0x55#8)] launch) (fun t => (t.reg 1, t.reg vf)) =
    some (0xCC#8, 0x55#8) := by decide
theorem test_T59_T63_add : after 0x8124 (withRegs [(1, 0x7F#8), (2, 0x80#8), (15, 1#8)] launch) (fun t => (t.reg 1, t.reg vf)) =
      some (0xFF#8, 0#8) ∧
    after 0x81F4 (withRegs [(1, 5#8), (15, 0xFF#8)] launch) (fun t => (t.reg 1, t.reg vf)) = some (4#8, 1#8) := by decide
theorem test_T61_T62_add : after 0x8F14 (withRegs [(15, 0x10#8), (1, 0x20#8)] launch) (·.reg vf) = some 0#8 ∧
    after 0x8F14 (withRegs [(15, 0xF0#8), (1, 0x20#8)] launch) (·.reg vf) = some 1#8 := by decide
theorem test_T65_T66_sub : after 0x8125 (withRegs [(1, 3#8), (2, 5#8), (15, 1#8)] launch) (fun t => (t.reg 1, t.reg vf)) =
      some (0xFE#8, 0#8) ∧
    after 0x8125 (withRegs [(1, 5#8), (2, 5#8), (15, 1#8)] launch) (fun t => (t.reg 1, t.reg vf)) = some (0#8, 0#8) := by decide
theorem test_T68_sub : after 0x8F15 (withRegs [(15, 9#8), (1, 3#8)] launch) (·.reg vf) = some 1#8 := by decide
theorem test_T69_T70_subn : after 0x8127 (withRegs [(1, 3#8), (2, 5#8)] launch) (fun t => (t.reg 1, t.reg vf)) = some (2#8, 1#8) ∧
    after 0x8127 (withRegs [(1, 5#8), (2, 3#8), (15, 1#8)] launch) (fun t => (t.reg 1, t.reg vf)) = some (0xFE#8, 0#8) := by decide
theorem test_T74_T75_shr : after 0x8376 (withRegs [(3, 5#8), (7, 0xFE#8)] launch) (fun t => (t.reg 3, t.reg vf, t.reg 7)) =
      some (2#8, 1#8, 0xFE#8) ∧
    after 0x8F06 (withRegs [(15, 6#8)] launch) (·.reg vf) = some 3#8 := by decide
theorem test_T80_T81_shr : after 0x83F6 (withRegs [(3, 5#8)] launch) (fun t => (t.reg 3, t.reg vf)) = some (2#8, 1#8) ∧
    errorOf 0x83F6 (withShiftFault (withRegs [(3, 5#8)] launch)) = some .illegalInstruction := by decide
theorem test_T77_T79_shl : after 0x830E (withRegs [(3, 0x81#8)] launch) (fun t => (t.reg 3, t.reg vf)) = some (2#8, 1#8) ∧
    after 0x8F0E (withRegs [(15, 0x81#8)] launch) (·.reg vf) = some 2#8 := by decide

/-- T82 and T84, for every random byte. -/
theorem test_T82_rnd : after 0xC30F launch (·.reg 3) = some (Config.rndByte 0 &&& 0x0F#8) := rfl

theorem test_T91_ldI : after 0xA000 launch (·.i) = some 0x000#12 ∧ after 0xA2F0 launch (·.i) = some 0x2F0#12 := by decide
theorem test_T92_T94_addI : after 0xF21E (withRegs [(2, 9#8), (15, 0x55#8)] (launch.setI 0x300#12)) (fun t => (t.i, t.reg vf)) =
      some (0x309#12, 0x55#8) ∧
    errorOf 0xF21E (withRegs [(2, 1#8)] (launch.setI 0xFFF#12)) = some .addressOverflow := by decide
theorem test_T97_T98_ldF : after 0xF029 (withRegs [(0, 0x0F#8)] launch) (·.i) = some 0x04B#12 ∧
    errorOf 0xF029 (withRegs [(0, 0x10#8)] launch) = some .invalidRegisterValue := by decide
theorem test_T100_ldB : after 0xF033 (withRegs [(0, 0xFF#8)] (launch.setI 0xFFD#12))
    (fun t => (t.readByte 0xFFD, t.readByte 0xFFE, t.readByte 0xFFF)) = some (2#8, 5#8, 5#8) := by decide
theorem test_T101_T102_ldB : errorOf 0xF033 (launch.setI 0xFFE#12) = some .addressOutOfRange ∧
    errorOf 0xF033 (launch.setI 0x1FF#12) = some .addressOutOfRange := by decide
theorem test_T105_storeRegs : after 0xF255 (withRegs [(0, 1#8), (1, 2#8), (2, 3#8)] (launch.setI 0xFFD#12))
    (fun t => (t.readByte 0xFFD, t.readByte 0xFFE, t.readByte 0xFFF, t.i)) = some (1#8, 2#8, 3#8, 0xFFD#12) := by decide
theorem test_T106_T107_storeRegs : errorOf 0xF255 (launch.setI 0xFFE#12) = some .addressOutOfRange ∧
    errorOf 0xF055 (launch.setI 0x1FF#12) = some .addressOutOfRange := by decide
theorem test_T113_loadRegs : after 0xF265 ((launch.setI 0x300#12).writeBytes 0x300 [2#8, 3#8, 4#8])
    (fun t => (t.reg 0, t.reg 1, t.reg 2, t.i)) = some (2#8, 3#8, 4#8, 0x300#12) := by decide
theorem test_T109_T112_loadRegs : after 0xF465 launch (fun t => (t.reg 0, t.reg 1, t.reg 4)) = some (0xF0#8, 0x90#8, 0xF0#8) ∧
    errorOf 0xFF65 (launch.setI 0xFF1#12) = some .addressOverflow := by decide

theorem test_T121_T122_drw : after 0xD121 (sprite 0 0 [0x80#8]) (fun t => (t.fb[0], t.reg vf, t.events)) =
      some (BitVec.ofNat 64 1, 0#8, [.drawNotify]) ∧
    after 0xD121 (sprite 0 0 [0x01#8]) (fun t => t.fb[0]) = some (BitVec.ofNat 64 128) := by decide
theorem test_T125_drw :
    errorOf 0xD121 (sprite 57 31 [0xFF#8]) = some .drawOutOfBounds ∧
    after 0xD121 (withEdge .wrap (sprite 57 31 [0xFF#8])) (fun t => t.fb[31]) = some 0xFE00000000000001#64 ∧
    after 0xD121 (withEdge .clip (sprite 57 31 [0xFF#8])) (fun t => t.fb[31]) = some 0xFE00000000000000#64 := by decide

theorem test_T140_T141_skp :
    after 0xE49E ((withRegs [(4, 7#8)] { launch with pc := 0x220#12 }).setKeys (keysDown [7])) (·.pc) = some 0x224#12 ∧
    after 0xE49E (withRegs [(4, 7#8)] { launch with pc := 0x220#12 }) (·.pc) = some 0x222#12 := by decide
theorem test_T145_T146_skp : errorOf 0xE49E ((withRegs [(4, 0x17#8)] launch).setKeys (keysDown [7])) = some .invalidRegisterValue ∧
    errorOf 0xE49E (withRegs [(4, 0x10#8)] { launch with pc := 0xFFE#12 }) = some .invalidRegisterValue := by decide
theorem test_T142_T143_sknp :
    after 0xE4A1 (withRegs [(4, 7#8)] { launch with pc := 0x220#12 }) (·.pc) = some 0x224#12 ∧
    after 0xE4A1 ((withRegs [(4, 7#8)] { launch with pc := 0x220#12 }).setKeys (keysDown [7])) (·.pc) = some 0x222#12 := by decide
theorem test_T148_ldVxDt : after 0xF507 { launch with dt := 0x3C#8 } (·.reg 5) = some 0x3C#8 := by decide
theorem test_T149_ldDtVx : after 0xF515 (withRegs [(5, 0x3C#8)] launch) (·.dt) = some 0x3C#8 := by decide
theorem test_T150_T151_ldStVx :
    after 0xF518 (withRegs [(5, 0x0A#8)] launch) (fun t => (t.st, t.events)) = some (0x0A#8, [.soundOn]) ∧
    after 0xF518 (withRegs [(5, 0x0A#8)] { launch with st := 5#8 }) (fun t => (t.st, t.events)) = some (0x0A#8, []) := by decide
theorem test_T159_ldVxK : after 0xF30A (launch.setKeys (keysDown [5])) (fun t => (t.mode, t.pc, t.reg 3)) =
    some (.awaitingKey 3, 0x200#12, 0#8) := by decide
theorem test_T161_poll : afterOp .step { launch with mode := .awaitingKey 3, keys := keysDown [2, 9] }
    (fun t => (t.reg 3, t.pc, t.mode)) = some (2#8, 0x202#12, .running) := by decide
theorem test_T154_tick : afterOp .tick { launch with dt := 2#8, st := 1#8 } (fun t => (t.dt, t.st, t.events)) =
    some (1#8, 0#8, [.soundOff]) := by decide
theorem test_T171_T172_load : afterOp (.loadProgram [0x12#8, 0x00#8])
      ((withRegs [(10, 0x17#8)] { launch with pc := 0x204#12 }).writeBytes 0x200 [0x6A#8, 0x12#8, 0x7A#8, 0x05#8])
      (fun t => (t.mem, t.img, t.reg 10, t.pc)) = some ([(0x200, 0x12#8)], [0x12#8, 0x00#8], 0x17#8, 0x204#12) := by decide
/-- T175's state. -/
def dirty : State := { launch with st := 5#8, mode := .awaitingKey 2, keys := keysDown [1], fb := launch.fb.flip 3 3 }

theorem test_T175_reset : afterOp .reset dirty (fun t => (t.st, t.events, t.mode)) = some (0#8, [.soundOff], .running) ∧
    afterOp .reset dirty (·.keys) = some (keysDown []) ∧ afterOp .reset dirty (·.fb) = some FrameBuffer.clear := by decide

/-! ### Witnesses: states and operands that meet the hypotheses of the statements -/

theorem witness_DecodeOfEncodeIsIdentity : (Instr.sys 0x0E1#12).wellFormed = true ∧ (Instr.drw 15 15 15).wellFormed = true := by decide

theorem witness_EncodeOfDecodeIsIdentity :
    decodeWord 0x0000#16 = .ok (.sys 0#12) ∧ decodeWord 0xFF65#16 = .ok (.loadRegs 15) := by decide

/-- The last word that can be fetched. -/
theorem witness_StepRunsTheDecodedInstruction :
    let s : State := { launch with pc := 0xFFE#12, mem := [(0xFFE, 0x12#8)] }
    s.mode = .running ∧ s.pc.toNat + 1 ≤ 0xFFF ∧
    decodeBytes [s.readByte s.pc.toNat, s.readByte (s.pc.toNat + 1)] = .ok (.jp 0x200#12, []) ∧ s.schedule = [] ∧
    { s with schedule := [.step, .tick] }.schedule = .step :: [.tick] := by decide

theorem witness_StepPerformsTheScheduledOperation :
    { launch with schedule := [.tick] }.schedule = .tick :: [] := by decide

theorem witness_FetchIsBigEndian : ({ launch with pc := 0xFFE#12 } : State).pc.toNat + 1 ≤ 0xFFF := by decide

theorem witness_FetchPastTheEndRaises :
    ({ launch with pc := 0xFFF#12 } : State).mode = .running ∧ 0xFFF < ({ launch with pc := 0xFFF#12 } : State).pc.toNat + 1 := by decide

theorem witness_SysAndIllegalWordsRaise :
    launch.mode = .running ∧ fetchWord launch = some 0x0000#16 ∧ decodeWord 0x0000#16 = .ok (.sys 0#12) ∧
    fetchWord (launch.withFetchWord 16 0xF1FF) = some 0xF1FF#16 ∧ decodeWord 0xF1FF#16 = .error .noMinorF := by decide

theorem witness_AwaitingKeyStepPolls :
    let s : State := { launch with mode := .awaitingKey 15, pc := 0xFFD#12 }
    s.mode = .awaitingKey 15 ∧ s.pc.toNat + 2 ≤ 0xFFF ∧ (∀ k : Reg, s.keys[k] = false) ∧
    (keysDown [15])[(15 : Reg)] = true ∧ (∀ j : Reg, j < 15 → (keysDown [15])[j] = false) ∧
    (keysDown [0, 15])[(0 : Reg)] = true ∧ (∀ j : Reg, j < 0 → (keysDown [0, 15])[j] = false) := by decide

theorem witness_RetPopsTheReturnAddress :
    launch.sp = 0 ∧ ({ launch with sp := 1 } : State).sp = (0 : Fin 16).succ ∧
    ({ launch with sp := 16 } : State).sp = (15 : Fin 16).succ := by decide

theorem witness_JumpsSetPcOrRaise :
    (0x1FF#12).toNat < 0x200 ∧ 0x200 ≤ (0x200#12).toNat ∧ 0x200 ≤ (0xFFF#12).toNat ∧
    (launch.reg 0).toNat + (0x1FF#12).toNat < 0x200 ∧
    (let v0 := (launch.setReg 0 0xFF#8).reg 0
     0xFFF < v0.toNat + (0xF01#12).toNat ∧ 0x200 ≤ v0.toNat + (0xF00#12).toNat ∧ v0.toNat + (0xF00#12).toNat ≤ 0xFFF ∧
     0x200 ≤ v0.toNat + (0x101#12).toNat ∧ v0.toNat + (0x101#12).toNat ≤ 0xFFF) := by decide

theorem witness_CallPushesTheReturnAddress :
    let full : State := { launch with sp := 16 }
    let late : State := { launch with sp := 15, pc := 0xFFE#12 }
    let last : State := { launch with sp := 15, pc := 0xFFD#12 }
    (0x1FF#12).toNat < 0x200 ∧ 0x200 ≤ (0x200#12).toNat ∧ full.sp.val = 16 ∧
    (late.sp = (15 : Fin 16).castSucc ∧ 0xFFF < late.pc.toNat + 2) ∧
    (last.sp = (15 : Fin 16).castSucc ∧ last.pc.toNat + 2 ≤ 0xFFF) ∧
    (launch.sp = (0 : Fin 16).castSucc ∧ launch.pc.toNat + 2 ≤ 0xFFF) := by decide

/-- Sixteen calls fill the stack (T31). -/
theorem witness_NestedCallsReturn :
    completes (execAll ((List.replicate 16 0x200#12).map .call) launch) = true ∧ completes (execAll ([].map .call) launch) = true := by
  decide

theorem witness_SkipsMovePcByFourOrTwo :
    launch.reg 3 = 0#8 ∧ launch.reg 3 ≠ 1#8 ∧ launch.reg 3 = launch.reg 4 ∧ (launch.setReg 3 1#8).reg 3 ≠ (launch.setReg 3 1#8).reg 4 ∧
    ({ launch with pc := 0xFFB#12 } : State).pc.toNat + 4 ≤ 0xFFF ∧ 0xFFF < ({ launch with pc := 0xFFC#12 } : State).pc.toNat + 4 ∧
    ({ launch with pc := 0xFFD#12 } : State).pc.toNat + 2 ≤ 0xFFF ∧ 0xFFF < ({ launch with pc := 0xFFE#12 } : State).pc.toNat + 2 := by
  decide

/-- The last PC from which an instruction can advance: the premise of `LoadsWriteOneRegister`, `AddByteWrapsWithoutFlag`, `LogicWritesNoFlag`,
`AddAndSubtractWriteResultThenFlag`, `RndMasksOneFreshByte`, `ClsClearsEveryPixel`, `DelayTimerIsSet`, `KeyWaitIsEntered`. -/
theorem witness_AdvancePremise : ({ launch with pc := 0xFFD#12 } : State).pc.toNat + 2 ≤ 0xFFF := by decide

/-- The first PC from which it cannot: the premise of the first clauses of `OnlyDirectUpdatesCompleteAtTheEnd` and of the last clauses of `RndMasksOneFreshByte` and
`KeyWaitIsEntered`. -/
theorem witness_AdvanceFails :
    0xFFF < ({ launch with pc := 0xFFE#12 } : State).pc.toNat + 2 ∧
    completes (exec (.jp 0x200#12) { launch with pc := 0xFFE#12 }) = true := by decide

/-- The own checks pass where the advance fails: the premises of the later clauses of `OnlyDirectUpdatesCompleteAtTheEnd`, at 0xFFE. -/
theorem witness_OnlyDirectUpdatesCompleteAtTheEnd :
    let s : State := { sprite 56 31 [0xFF#8] with pc := 0xFFE#12 }
    let t : State := { launch.setReg 0 0xF#8 with i := 0xFF0#12, pc := 0xFFE#12 }
    let u : State := { launch with i := 0xFFD#12, sp := 15, pc := 0xFFE#12 }
    (0xFFF < s.pc.toNat + 2 ∧ s.config.shiftY15Fault = false ∧ (14 : Reg).val ≠ 15 ∧ s.i.toNat + (1 : Fin 16).val - 1 ≤ 0xFFF ∧
      s.config.drawEdge = .error ∧ (s.reg 1).toNat + 7 ≤ 63 ∧ (s.reg 2).toNat + (1 : Fin 16).val - 1 ≤ 31) ∧
    (0xFFF < t.pc.toNat + 2 ∧ t.i.toNat + (t.reg 0).toNat ≤ 0xFFF ∧ (t.reg 0).toNat ≤ 0xF ∧ 0x200 ≤ t.i.toNat ∧
      t.i.toNat + (15 : Reg).val ≤ 0xFFF) ∧
    (0xFFF < u.pc.toNat + 2 ∧ 0x200 ≤ u.i.toNat ∧ u.i.toNat + 2 ≤ 0xFFF ∧ 0x200 ≤ (0x200#12).toNat ∧ u.sp.val < 16) := by decide

theorem witness_ShiftsWriteFlagThenResult :
    let s : State := { withShiftFault launch with pc := 0xFFD#12 }
    ((withShiftFault launch).config.shiftY15Fault = true ∧ (15 : Reg).val = 15) ∧
    (launch.config.shiftY15Fault = false ∧ launch.pc.toNat + 2 ≤ 0xFFF) ∧ ((14 : Reg).val ≠ 15 ∧ s.pc.toNat + 2 ≤ 0xFFF) := by decide

theorem witness_IndexLoadsSetI :
    let s : State := { launch.setReg 0 0xF#8 with pc := 0xFFD#12 }
    0xF < ((launch.setReg 0 0x10#8).reg 0).toNat ∧ (s.reg 0).toNat ≤ 0xF ∧ s.pc.toNat + 2 ≤ 0xFFF := by decide

theorem witness_AddIndexRaisesPastTheEnd :
    let s := (launch.setReg 2 1#8).setI 0xFFF#12
    let t := (launch.setReg 2 0xFF#8).setI 0xF00#12
    0xFFF < s.i.toNat + (s.reg 2).toNat ∧ t.i.toNat + (t.reg 2).toNat ≤ 0xFFF ∧ t.pc.toNat + 2 ≤ 0xFFF := by decide

theorem witness_StoreDecimalWritesThreeDigits :
    let s : State := { launch with i := 0xFFD#12, pc := 0xFFD#12 }
    let t : State := { launch with i := 0x200#12 }
    (launch.setI 0x1FF#12).i.toNat < 0x200 ∧ 0xFFF < (launch.setI 0xFFE#12).i.toNat + 2 ∧
    (0x200 ≤ s.i.toNat ∧ s.i.toNat + 2 ≤ 0xFFF ∧ s.pc.toNat + 2 ≤ 0xFFF) ∧
    (0x200 ≤ t.i.toNat ∧ t.i.toNat + 2 ≤ 0xFFF ∧ t.pc.toNat + 2 ≤ 0xFFF) := by decide

theorem witness_StoreRegistersWritesTheRange :
    let s : State := { launch with i := 0xFF0#12, pc := 0xFFD#12 }
    let t : State := { launch with i := 0x200#12 }
    (launch.setI 0x1FF#12).i.toNat < 0x200 ∧ 0xFFF < (launch.setI 0xFF1#12).i.toNat + (15 : Reg).val ∧
    (0x200 ≤ s.i.toNat ∧ s.i.toNat + (15 : Reg).val ≤ 0xFFF ∧ s.pc.toNat + 2 ≤ 0xFFF) ∧
    (0x200 ≤ t.i.toNat ∧ t.i.toNat + (0 : Reg).val ≤ 0xFFF ∧ t.pc.toNat + 2 ≤ 0xFFF) := by decide

theorem witness_LoadRegistersReadsTheRange :
    let s : State := { launch with i := 0xFF0#12, pc := 0xFFD#12 }
    0xFFF < (launch.setI 0xFF1#12).i.toNat + (15 : Reg).val ∧
    (s.i.toNat + (15 : Reg).val ≤ 0xFFF ∧ s.pc.toNat + 2 ≤ 0xFFF) ∧
    (launch.i.toNat + (0 : Reg).val ≤ 0xFFF ∧ launch.pc.toNat + 2 ≤ 0xFFF) := by decide

theorem witness_StoreThenLoadRestoresRegisters :
    let s : State := { launch with i := 0xFF0#12, pc := 0xFFB#12 }
    0x200 ≤ s.i.toNat ∧ s.i.toNat + (15 : Reg).val ≤ 0xFFF ∧ s.pc.toNat + 4 ≤ 0xFFF := by decide

theorem witness_DecimalDigitsRecombine :
    completes (exec (.ldB 0) ((launch.setReg 0 0xFF#8).setI 0xFFD#12)) = true := by decide

theorem witness_NoInstructionWritesBelowTheProgram :
    completes (exec (.storeRegs 15) (launch.setI 0x200#12)) = true ∧
    completes (exec .cls launch) = true ∧ (∀ x, Instr.cls ≠ .ldB x ∧ Instr.cls ≠ .storeRegs x) ∧
    ¬(∀ k, k ≤ 2 → 0x200 ≤ (launch.setI 0xFFE#12).i.toNat + k ∧ (launch.setI 0xFFE#12).i.toNat + k ≤ 0xFFF) ∧
    ¬(∀ k, k ≤ (0 : Reg).val → 0x200 ≤ (launch.setI 0x1FF#12).i.toNat + k ∧ (launch.setI 0x1FF#12).i.toNat + k ≤ 0xFFF) := by decide

theorem witness_StoresAreSeenByTheNextFetch :
    (0xFFE#12).toNat + 1 ≤ 0xFFF ∧ completes (exec (.storeRegs 15) (launch.setI 0xFF0#12)) = true ∧
    completes (exec (.storeRegs 0) (launch.setI 0xFFF#12)) = true ∧ completes (exec (.ldB 0) (launch.setI 0xFFD#12)) = true := by decide

/-- The box ends exactly at column 63, row 31 (T124), and any place under WRAP and CLIP. -/
theorem witness_DrawXorsTheSprite :
    let s := sprite 56 31 [0xFF#8]
    s.i.toNat + (1 : Fin 16).val - 1 ≤ 0xFFF ∧ s.config.drawEdge = .error ∧ 0 < (1 : Fin 16).val ∧
    (s.reg 1).toNat + 7 ≤ 63 ∧ (s.reg 2).toNat + (1 : Fin 16).val - 1 ≤ 31 ∧ s.pc.toNat + 2 ≤ 0xFFF ∧
    (withEdge .wrap (sprite 255 255 [0xFF#8])).config.drawEdge ≠ .error ∧
    (withEdge .clip (sprite 255 255 [0xFF#8])).config.drawEdge ≠ .error := by decide

theorem witness_DrawXorsTheSprite_covers : Covers (sprite 56 31 [0xFF#8]) 1 2 1 63 31 :=
  ⟨0, 7, by decide, by decide, by decide, show 56 + 7 = 63 ∧ 31 + 0 = 31 by decide⟩

theorem witness_DrawRaisesInOrder :
    let wide := sprite 57 0 [0xFF#8]
    let tall := sprite 0 31 [0xFF#8, 0xFF#8]
    let late : State := { sprite 56 31 [0xFF#8] with pc := 0xFFE#12 }
    (0 < (2 : Fin 16).val ∧ 0xFFF < (launch.setI 0xFFF#12).i.toNat + (2 : Fin 16).val - 1) ∧
    (wide.i.toNat + (1 : Fin 16).val - 1 ≤ 0xFFF ∧ wide.config.drawEdge = .error ∧ 63 < (wide.reg 1).toNat + 7) ∧
    (tall.i.toNat + (2 : Fin 16).val - 1 ≤ 0xFFF ∧ tall.config.drawEdge = .error ∧ 31 < (tall.reg 2).toNat + (2 : Fin 16).val - 1) ∧
    (late.i.toNat + (1 : Fin 16).val - 1 ≤ 0xFFF ∧ (late.reg 1).toNat + 7 ≤ 63 ∧ (late.reg 2).toNat + (1 : Fin 16).val - 1 ≤ 31 ∧
      0xFFF < late.pc.toNat + 2) := by decide

theorem witness_DrawingTwiceRestoresTheBuffer :
    completes (exec (.drw 1 2 1) (sprite 56 31 [0xFF#8])) = true ∧
    (∃ t u : State, exec (.drw 1 2 1) (sprite 56 31 [0xFF#8]) = .next t ∧ u.fb = t.fb ∧ u.reg 1 = (sprite 56 31 [0xFF#8]).reg 1 ∧
      u.reg 2 = (sprite 56 31 [0xFF#8]).reg 2 ∧ u.i = (sprite 56 31 [0xFF#8]).i ∧
      u.config = (sprite 56 31 [0xFF#8]).config ∧ (∀ a, u.readByte a = (sprite 56 31 [0xFF#8]).readByte a) ∧
      u.pc.toNat + 2 ≤ 0xFFF) :=
  ⟨by decide, _, { stateAfter launch (exec (.drw 1 2 1) (sprite 56 31 [0xFF#8])) with pc := 0x200#12 },
    rfl, rfl, rfl, rfl, rfl, rfl, fun _ => rfl, by decide⟩

theorem witness_KeySkipsFollowTheKeyLevel :
    0xF < ((launch.setReg 4 0x10#8).reg 4).toNat ∧ ((launch.setReg 4 0xF#8).reg 4).toNat = (15 : Reg).val ∧
    (launch.setKeys (keysDown [15])).keys[(15 : Reg)] = true ∧ launch.keys[(15 : Reg)] = false ∧
    ({ launch with pc := 0xFFB#12 } : State).pc.toNat + 4 ≤ 0xFFF ∧ 0xFFF < ({ launch with pc := 0xFFC#12 } : State).pc.toNat + 4 ∧
    ({ launch with pc := 0xFFD#12 } : State).pc.toNat + 2 ≤ 0xFFF ∧ 0xFFF < ({ launch with pc := 0xFFE#12 } : State).pc.toNat + 2 := by
  decide

theorem witness_SoundTimerIsSetWithItsEdge :
    launch.st = 0#8 ∧ (launch.setReg 5 1#8).reg 5 ≠ 0#8 ∧ ({ launch with st := 5#8 } : State).st ≠ 0#8 ∧ launch.reg 5 = 0#8 ∧
    (launch.st = 0#8 ↔ launch.reg 5 = 0#8) := by decide

theorem witness_LoadProgramFillsTheProgramRegion :
    (List.replicate 2 0xFF#8).length ≤ 3584 ∧ 3584 < (List.replicate 3585 0xFF#8).length ∧
    (List.replicate 3584 0xFF#8).length ≤ 3584 := by
  simp only [List.length_replicate]; omega

theorem witness_ResetRestoresTheInitialState : launch.img.length ≤ 3584 ∧ operate .reset launch = .next launch := ⟨by decide, rfl⟩

theorem witness_ResetIsIdempotent : completes (operate .reset { launch with st := 5#8, img := [0x12#8] }) = true := by decide

theorem witness_RegistersAreZeroAfterReset : completes (operate .reset (launch.setReg 15 1#8)) = true := by decide

theorem witness_LaunchStateHoldsTheProgram : ([0x6A#8, 0x12#8, 0x7A#8, 0x05#8] : List Byte).length ≤ 3584 := by decide

/-- The power-on state meets the invariant: its fields one by one, as numbers. -/
theorem witness_EveryStepKeepsInv :
    0x200 ≤ launch.pc.toNat ∧ launch.sp = 0 ∧ launch.mode = .running ∧ launch.img = [] ∧ launch.memWf = true ∧
    (∀ a, launch.readByte a = Memory.blank launch.config.glyphs a) ∧ completes (step { launch with schedule := [.tick] }) = true :=
  ⟨by decide, by decide, by decide, by decide, by decide, fun _ => rfl, by decide⟩

theorem witness_RestIsAFixedPoint : AtRest (launch.withFetchWord 16 0x1200) ∧ 0x200 ≤ (launch.withFetchWord 16 0x1200).pc.toNat :=
  ⟨⟨by decide, by decide⟩, by decide⟩

theorem witness_OnlyListedRegistersChange :
    completes (exec (.addReg 1 2) launch) = true ∧ ¬writesReg (.addReg 1 2) 0 ∧ completes (exec (.loadRegs 3) launch) = true ∧
    ¬writesReg (.loadRegs 3) 4 := ⟨by decide, show ¬((0 : Reg) = 1 ∨ (0 : Reg) = vf) by decide, by decide, show ¬(4 ≤ 3) by decide⟩

/-- An instruction that completes and one that stops: the premises of `OnlyNamedInstructionsChangeState` and
`InstructionsRaiseOnlyListedErrors`. -/
theorem witness_ExecAnswers : completes (exec .cls launch) = true ∧ exec .ret launch = .fault .stackUnderflow :=
  ⟨by decide, rfl⟩

theorem witness_SoundEdgesFollowTheSoundTimer :
    completes (operate .tick { launch with st := 1#8 }) = true ∧ completes (operate .reset { launch with st := 1#8 }) = true ∧
    completes (operate .step (launch.withFetchWord 16 0x00E0)) = true := by decide

theorem witness_OnlyKeySkipsDependOnTheKeys :
    (∀ x, Instr.cls ≠ .skp x ∧ Instr.cls ≠ .sknp x) ∧ completes (exec .cls launch) = true ∧ exec .ret launch = .fault .stackUnderflow :=
  ⟨by decide, by decide, rfl⟩

theorem witness_OnlyTimerInstructionsDependOnDt :
    (∀ x, Instr.cls ≠ .ldVxDt x ∧ Instr.cls ≠ .ldDtVx x) ∧ completes (exec .cls launch) = true ∧
    exec .ret launch = .fault .stackUnderflow :=
  ⟨by decide, by decide, rfl⟩

end Sys2Proof.Tests
end

section
/-! PROOFS. The memory rules of spec/20_memory.md: which instructions write memory and where (R52), and the byte order of the fetch (R54). -/

namespace Sys2Proof.Machine

/-! ### Instructions that leave memory alone -/

/-- `t` has the memory of `s` and its parameters, on which the bytes that memory does not list depend (log 20). -/
def SameMemory (s t : State) : Prop := t.mem = s.mem ∧ t.config = s.config

theorem SameMemory.mem_eq {s t : State} (h : SameMemory s t) : t.mem = s.mem := h.1

theorem SameMemory.readByte_eq {s t : State} (h : SameMemory s t) (a : Nat) : t.readByte a = s.readByte a := by
  obtain ⟨hmem, hconfig⟩ := h
  simp only [State.readByte, hmem, hconfig]

theorem SameMemory.of_advance {k : Nat} {s u t : State} (h : advance k u = .next t) (hu : SameMemory s u) : SameMemory s t := by
  obtain ⟨-, rfl⟩ := advance_eq_next.1 h
  exact hu

theorem SameMemory.of_skipIf {c : Bool} {s t : State} (h : skipIf c s = .next t) : SameMemory s t := by
  obtain ⟨-, rfl⟩ := skipIf_eq_next.1 h
  exact ⟨rfl, rfl⟩

theorem execRet_sameMemory {s t : State} (h : execRet s = .next t) : SameMemory s t := by
  unfold execRet at h
  split at h
  · cases h
  · next hpop =>
    obtain ⟨hsp, -, rfl⟩ := State.pop_eq_some.1 hpop
    cases h
    exact ⟨rfl, rfl⟩

theorem execCall_sameMemory {nnn : Addr} {s t : State} (h : execCall nnn s = .next t) : SameMemory s t := by
  unfold execCall at h
  split at h
  · cases h
  · split at h
    · cases h
    · next hpush =>
      obtain ⟨hsp, rfl⟩ := State.push_eq_some.1 hpush
      split at h <;> cases h
      exact ⟨rfl, rfl⟩

/-- An instruction other than `LD B,Vx` and `LD [I],Vx` writes no memory (20_memory.md R52). -/
theorem exec_sameMemory {i : Instr} {s t : State} (hi : ∀ x, i ≠ .ldB x ∧ i ≠ .storeRegs x) (h : exec i s = .next t) :
    SameMemory s t := by
  cases i with
  | sys => cases h
  | ret => exact execRet_sameMemory h
  | call => exact execCall_sameMemory h
  | jp | jpV0 =>
    simp only [exec, execJp, execJpV0] at h
    split at h <;> cases h
    exact ⟨rfl, rfl⟩
  | seByte | sneByte | seReg | sneReg => exact .of_skipIf h
  | skp | sknp =>
    simp only [exec, execSkp, execSknp] at h
    split at h
    · cases h
    · exact .of_skipIf h
  | cls | ldByte | addByte | ldReg | orReg | andReg | xorReg | addReg | sub | subn | ldI | rnd | ldVxDt | ldDtVx | ldStVx =>
    exact .of_advance h ⟨rfl, rfl⟩
  | shr | shl =>
    simp only [exec, execShr, execShl] at h
    split at h
    · cases h
    · exact .of_advance h ⟨rfl, rfl⟩
  | drw =>
    simp only [exec, execDrw] at h
    split at h
    · cases h
    · split at h
      · cases h
      · exact .of_advance h ⟨rfl, rfl⟩
  | ldVxK =>
    simp only [exec, execLdVxK] at h
    split at h <;> cases h
    exact ⟨rfl, rfl⟩
  | addI | loadRegs =>
    simp only [exec, execAddI, execLoadRegs] at h
    split at h
    · exact .of_advance h ⟨rfl, rfl⟩
    · cases h
  | ldF =>
    simp only [exec, execLdF] at h
    split at h
    · cases h
    · exact .of_advance h ⟨rfl, rfl⟩
  | ldB x => exact absurd rfl (hi x).1
  | storeRegs x => exact absurd rfl (hi x).2

/-! ### The two instructions that store -/

/-- What `LD B,Vx` and `LD [I],Vx` share: the range I to I + `last` is checked, then the bytes are stored from I upward (43_index_memory.md
R133, R134). -/
def storeFromI (last : Nat) (bs : List Byte) (s : State) : Result :=
  if storeRangeOk s last then advance 2 (s.writeBytes s.i.toNat bs) else raise .addressOutOfRange

theorem exec_ldB (x : Reg) (s : State) : exec (.ldB x) s = storeFromI 2 (decimalDigits (s.reg x)) s := rfl

theorem exec_storeRegs (x : Reg) (s : State) : exec (.storeRegs x) s = storeFromI x.val (regsUpTo s x) s := rfl

theorem storeFromI_eq_next {last : Nat} {bs : List Byte} {s t : State} :
    storeFromI last bs s = .next t ↔ (0x200 ≤ s.i.toNat ∧ s.i.toNat + last ≤ 0xFFF) ∧ s.pc.toNat + 2 ≤ 0xFFF ∧
      t = (s.writeBytes s.i.toNat bs).setPc (s.pc + 2#12) := by
  rw [← storeRangeOk_iff]
  unfold storeFromI
  split
  · next h => simp [h, advance_eq_next]
  · next h => simp [h, raise]

theorem storeFromI_of_outside {last : Nat} {bs : List Byte} {s : State}
    (h : ¬∀ k, k ≤ last → 0x200 ≤ s.i.toNat + k ∧ s.i.toNat + k ≤ 0xFFF) :
    storeFromI last bs s = .fault .addressOutOfRange := by
  refine if_neg fun hok => h fun k hk => ?_
  obtain ⟨hlow, hhigh⟩ := storeRangeOk_iff.1 hok
  omega

theorem storeFromI_readByte_below {last a : Nat} {bs : List Byte} {s t : State} (h : storeFromI last bs s = .next t)
    (ha : a < 0x200) : t.readByte a = s.readByte a := by
  obtain ⟨⟨hlow, -⟩, -, rfl⟩ := storeFromI_eq_next.1 h
  exact State.readByte_writeBytes_outside s (.inl (by omega))

theorem exec_readByte_below {i : Instr} {s t : State} {a : Nat} (h : exec i s = .next t) (ha : a < 0x200) :
    t.readByte a = s.readByte a := by
  by_cases hi : ∃ x, i = .ldB x ∨ i = .storeRegs x
  · obtain ⟨x, rfl | rfl⟩ := hi
    · exact storeFromI_readByte_below (exec_ldB x s ▸ h) ha
    · exact storeFromI_readByte_below (exec_storeRegs x s ▸ h) ha
  · exact (exec_sameMemory (by simpa using hi) h).readByte_eq a

/-! ### The fetch -/

theorem fetchWord_of_le {s : State} (h : s.pc.toNat + 1 ≤ 0xFFF) :
    fetchWord s = some (wordOfBytes (s.readByte s.pc.toNat) (s.readByte (s.pc.toNat + 1))) := if_pos h

/-! ### The statements -/

/-- Settles O32: the two storing instructions check their range first, and no other instruction writes memory. -/
theorem noInstructionWritesBelowTheProgram : Obligations.NoInstructionWritesBelowTheProgram := by
  intro s
  refine ⟨fun i t a => exec_readByte_below, fun i t h hi => ?_, fun x hout => ?_, fun x hout => ?_⟩
  · have hsame : SameMemory s t := exec_sameMemory hi h
    exact ⟨hsame.mem_eq, hsame.readByte_eq⟩
  · rw [exec_ldB, storeFromI_of_outside hout]
  · rw [exec_storeRegs, storeFromI_of_outside hout]

/-- Settles O9: the fetched word is the byte at PC followed by the byte at PC + 1. -/
theorem fetchIsBigEndian : Obligations.FetchIsBigEndian := fun _ hpc =>
  ⟨_, fetchWord_of_le hpc, BitVec.toNat_append _ _, highByte_wordOfBytes _ _, lowByte_wordOfBytes _ _⟩

end Sys2Proof.Machine
end

section
/-! PROOFS. The encoding rules of spec/30_encoding.md: the fields of a word are its bit ranges (R71), and the words the source shows (R77). -/

namespace Sys2Proof

/-! ### Bit ranges as remainders -/

theorem and_0xF_eq_mod (a : Nat) : a &&& 0xF = a % 16 := Nat.and_two_pow_sub_one_eq_mod a 4

theorem and_0xFF_eq_mod (a : Nat) : a &&& 0xFF = a % 256 := Nat.and_two_pow_sub_one_eq_mod a 8

theorem and_0xFFF_eq_mod (a : Nat) : a &&& 0xFFF = a % 4096 := Nat.and_two_pow_sub_one_eq_mod a 12

/-! ### The wide fields are made of the nibbles -/

theorem fields_nn_eq_nibbles (w : Word) : (fields w).nn.toNat = (fields w).y.val * 16 + (fields w).n.val := by
  rw [fields_nn, fields_y, fields_n]
  omega

theorem fields_nnn_eq_nibbles (w : Word) :
    (fields w).nnn.toNat = (fields w).x.val * 256 + (fields w).y.val * 16 + (fields w).n.val := by
  rw [fields_nnn, fields_x, fields_y, fields_n]
  omega

/-- The top nibble needs no mask: a word has no bit above it. -/
theorem fields_type_eq_shiftRight (w : Word) : (fields w).type.val = w.toNat >>> 12 := by
  rw [fields_type, Nat.shiftRight_eq_div_pow]
  exact Nat.mod_eq_of_lt (Nat.div_lt_of_lt_mul w.isLt)

/-! ### The statements -/

/-- Settles O6: a shift is a division and a mask of low ones a remainder, which is how the model's fields read the word. -/
theorem fieldsAreTheBitRanges : Obligations.FieldsAreTheBitRanges := by
  intro w
  refine ⟨fields_type_eq_shiftRight w, ?x, ?y, ?n, ?nn, ?nnn, fields_nn_eq_nibbles w, fields_nnn_eq_nibbles w⟩
  case x => rw [fields_x, and_0xF_eq_mod, Nat.shiftRight_eq_div_pow]
  case y => rw [fields_y, and_0xF_eq_mod, Nat.shiftRight_eq_div_pow]
  case n => rw [fields_n, and_0xF_eq_mod]
  case nn => rw [fields_nn, and_0xFF_eq_mod]
  case nnn => rw [fields_nnn, and_0xFFF_eq_mod]

/-- Settles O5: the decoder runs on the five words. -/
theorem wordsShownBySourceDecode : Obligations.WordsShownBySourceDecode := ⟨rfl, rfl, rfl, rfl, rfl⟩

end Sys2Proof
end

section
/-! PROOFS. The control transfers of spec/41_control_flow.md that take no branch on a condition and save no address: SYS and the words with no
instruction (R100), RET (R101), JP addr and JP V0,addr (R102, R108). -/

namespace Sys2Proof.Machine

/-! ### A step from the word it fetches -/

theorem fetchInstr_of_decodeWord_ok {s : State} {w : Word} {i : Instr} (hw : fetchWord s = some w)
    (hd : decodeWord w = .ok i) : fetchInstr s = .ok i := by
  simp only [fetchInstr, hw, hd]

theorem fetchInstr_of_decodeWord_error {s : State} {w : Word} {e : DecodeError} (hw : fetchWord s = some w)
    (hd : decodeWord w = .error e) : fetchInstr s = .error .illegalInstruction := by
  simp only [fetchInstr, hw, hd]

theorem operate_step_of_fetchInstr_ok {s : State} {i : Instr} (hm : s.mode = .running) (hf : fetchInstr s = .ok i) :
    operate .step s = exec i s := by
  rw [operate_step_running hm, hf]

theorem operate_step_of_fetchInstr_error {s : State} {f : Fault} (hm : s.mode = .running) (hf : fetchInstr s = .error f) :
    operate .step s = .fault f := by
  rw [operate_step_running hm, hf]

theorem exec_sys (nnn : Addr) (s : State) : exec (.sys nnn) s = .fault .illegalInstruction := rfl

theorem stateAfter_of_eq_fault {s : State} {r : Result} {f : Fault} (h : r = .fault f) : stateAfter s r = s := by
  rw [h, stateAfter]

theorem operate_step_illegal {s : State} {w : Word} (hm : s.mode = .running) (hw : fetchWord s = some w)
    (hd : (∃ nnn, decodeWord w = .ok (.sys nnn)) ∨ (∃ e, decodeWord w = .error e)) :
    operate .step s = .fault .illegalInstruction := by
  obtain ⟨nnn, hsys⟩ | ⟨e, herr⟩ := hd
  · rw [operate_step_of_fetchInstr_ok hm (fetchInstr_of_decodeWord_ok hw hsys), exec_sys]
  · exact operate_step_of_fetchInstr_error hm (fetchInstr_of_decodeWord_error hw herr)

/-! ### The return -/

theorem State.pop_of_sp_zero {s : State} (h : s.sp = 0) : s.pop = none := State.pop_eq_none.2 (congrArg Fin.val h)

theorem State.pop_of_sp_succ {s : State} {k : Fin 16} (h : s.sp = k.succ) :
    s.pop = some (s.stack[k], { s with sp := k.castSucc }) := by
  have hval : s.sp.val = k.val + 1 := congrArg Fin.val h
  refine State.pop_eq_some.2 ⟨by omega, ?_, ?_⟩
  · simp [hval]
  · simp [hval, Fin.ext_iff]

theorem exec_ret_of_pop_none {s : State} (h : s.pop = none) : exec .ret s = .fault .stackUnderflow := by
  simp only [exec, execRet, h, raise]

theorem exec_ret_of_pop_some {s t : State} {ret : Addr} (h : s.pop = some (ret, t)) :
    exec .ret s = .next (t.setPc ret) := by
  simp only [exec, execRet, h]

/-! ### The jumps -/

/-- What `JP addr` and `JP V0,addr` share: a jump to `t`, computed without wrap, that must lie in 0x200 to 0xFFF (60_exceptions.md R164). -/
def jumpTo (t : Nat) (s : State) : Result :=
  match jumpTarget t with
  | none => raise .invalidJumpTarget
  | some a => .next (s.setPc a)

theorem exec_jp (nnn : Addr) (s : State) : exec (.jp nnn) s = jumpTo nnn.toNat s := rfl

theorem exec_jpV0 (nnn : Addr) (s : State) : exec (.jpV0 nnn) s = jumpTo ((s.reg 0).toNat + nnn.toNat) s := rfl

theorem jumpTo_of_outside {t : Nat} (s : State) (h : t < 0x200 ∨ 0xFFF < t) : jumpTo t s = .fault .invalidJumpTarget := by
  rw [jumpTo, jumpTarget_eq_none.2 h, raise]

theorem jumpTo_of_inside {t : Nat} (s : State) (hlow : 0x200 ≤ t) (hhigh : t ≤ 0xFFF) :
    jumpTo t s = .next (s.setPc (BitVec.ofNat 12 t)) := by
  rw [jumpTo, jumpTarget_eq_some.2 ⟨hlow, hhigh, rfl⟩]

theorem jumpTo_addr {a : Addr} (s : State) (h : 0x200 ≤ a.toNat) : jumpTo a.toNat s = .next (s.setPc a) := by
  rw [jumpTo, jumpTarget_addr h]

/-! ### The statements -/

/-- Settles O11: `SYS` and an undecodable word meet the same fault, the one in its execution and the other in the fetch. -/
theorem sysAndIllegalWordsRaise : Obligations.SysAndIllegalWordsRaise := by
  refine ⟨fun nnn s => ⟨rfl, exec_sys nnn s⟩, fun s w hm hw hd => ?_⟩
  have hfault : operate .step s = .fault .illegalInstruction := operate_step_illegal hm hw hd
  exact ⟨hfault, stateAfter_of_eq_fault hfault⟩

/-- Settles O13: `RET` is the pop of the stack, which fails at depth 0 and else leaves the entry in place. -/
theorem retPopsTheReturnAddress : Obligations.RetPopsTheReturnAddress := by
  refine fun s => ⟨rfl, fun hempty => ?_, fun k hk => ?_⟩
  · exact exec_ret_of_pop_none (State.pop_of_sp_zero hempty)
  · exact exec_ret_of_pop_some (State.pop_of_sp_succ hk)

/-- Settles O14: both are `jumpTo`; a 12-bit target can only lie too low, the sum with V0 also too high. -/
theorem jumpsSetPcOrRaise : Obligations.JumpsSetPcOrRaise := by
  refine fun nnn s => ⟨⟨rfl, fun hlow => ?_, fun hin => ?_⟩, ⟨rfl, fun hout => ?_, fun hlow hhigh => ?_⟩⟩
  · rw [exec_jp, jumpTo_of_outside s (.inl hlow)]
  · exact (exec_jp nnn s).trans (jumpTo_addr s hin)
  · rw [exec_jpV0, jumpTo_of_outside s hout]
  · exact (exec_jpV0 nnn s).trans (jumpTo_of_inside s hlow hhigh)

end Sys2Proof.Machine
end

section
/-! PROOFS. The register loads, additions and logic of spec/42_register_alu.md that write one register and no flag: LD Vx,byte and LD Vx,Vy
(R112, R114), with LD Vx,DT of spec/45_keypad_timers.md (R152), ADD Vx,byte (R113), and OR, AND, XOR (R115 to R117). -/

namespace Sys2Proof.Machine

/-! ### The two sums as numbers -/

theorem addr_add_eq_ofNat (a : Addr) (k : Nat) : a + BitVec.ofNat 12 k = BitVec.ofNat 12 (a.toNat + k) := by
  rw [BitVec.ofNat_add, BitVec.ofNat_toNat, BitVec.setWidth_eq]

theorem byte_add_eq_ofNat_mod (a b : Byte) : a + b = BitVec.ofNat 8 ((a.toNat + b.toNat) % 256) :=
  BitVec.eq_of_toNat_eq (by rw [BitVec.toNat_add, BitVec.toNat_ofNat, Nat.mod_mod])

/-- `advance_of_le` with the new PC as a number, the form in which the statements give it. -/
theorem advance_of_le_ofNat {k : Nat} {s : State} (h : s.pc.toNat + k ≤ 0xFFF) :
    advance k s = .next (s.setPc (BitVec.ofNat 12 (s.pc.toNat + k))) := by
  rw [advance_of_le h, addr_add_eq_ofNat]

/-! ### What these instructions share -/

/-- The common effect of the instructions below: the byte `b` goes to V[X], then `advance(2)`. -/
def writeRegThenAdvance (x : Reg) (b : Byte) (s : State) : Result := advance 2 (s.setReg x b)

/-- V[X] and PC change and nothing else does. -/
theorem writeRegThenAdvance_of_le (x : Reg) (b : Byte) {s : State} (h : s.pc.toNat + 2 ≤ 0xFFF) :
    writeRegThenAdvance x b s = .next { s with v := s.v.set x b, pc := BitVec.ofNat 12 (s.pc.toNat + 2) } :=
  advance_of_le_ofNat h

theorem exec_ldByte (x : Reg) (nn : Byte) (s : State) : exec (.ldByte x nn) s = writeRegThenAdvance x nn s := rfl

theorem exec_ldReg (x y : Reg) (s : State) : exec (.ldReg x y) s = writeRegThenAdvance x (s.reg y) s := rfl

theorem exec_ldVxDt (x : Reg) (s : State) : exec (.ldVxDt x) s = writeRegThenAdvance x s.dt s := rfl

theorem exec_addByte (x : Reg) (nn : Byte) (s : State) :
    exec (.addByte x nn) s = writeRegThenAdvance x (s.reg x + nn) s := rfl

theorem exec_orReg (x y : Reg) (s : State) :
    exec (.orReg x y) s = writeRegThenAdvance x (s.reg x ||| s.reg y) s := rfl

theorem exec_andReg (x y : Reg) (s : State) :
    exec (.andReg x y) s = writeRegThenAdvance x (s.reg x &&& s.reg y) s := rfl

theorem exec_xorReg (x y : Reg) (s : State) :
    exec (.xorReg x y) s = writeRegThenAdvance x (s.reg x ^^^ s.reg y) s := rfl

/-! ### The statements -/

/-- Settles O18: the three loads differ only in the byte they write. -/
theorem loadsWriteOneRegister : Obligations.LoadsWriteOneRegister := by
  refine fun x y nn s h => ⟨⟨rfl, ?ldByte⟩, ⟨rfl, ?ldReg⟩, ⟨rfl, ?ldVxDt⟩⟩
  case ldByte => rw [exec_ldByte, writeRegThenAdvance_of_le x nn h]
  case ldReg => rw [exec_ldReg, writeRegThenAdvance_of_le x (s.reg y) h]
  case ldVxDt => rw [exec_ldVxDt, writeRegThenAdvance_of_le x s.dt h]

/-- Settles O19: the sum of two bytes is the sum of their values mod 256, and it is the one byte written. -/
theorem addByteWrapsWithoutFlag : Obligations.AddByteWrapsWithoutFlag := by
  refine fun x nn s h => ⟨rfl, ?_⟩
  rw [exec_addByte, byte_add_eq_ofNat_mod, writeRegThenAdvance_of_le x _ h]

/-- Settles O20: the three operations differ only in the byte they write, VF being written only as V[X]. -/
theorem logicWritesNoFlag : Obligations.LogicWritesNoFlag := by
  refine fun x y s h => ⟨⟨rfl, ?orReg⟩, ⟨rfl, ?andReg⟩, ⟨rfl, ?xorReg⟩⟩
  case orReg => rw [exec_orReg, writeRegThenAdvance_of_le x _ h]
  case andReg => rw [exec_andReg, writeRegThenAdvance_of_le x _ h]
  case xorReg => rw [exec_xorReg, writeRegThenAdvance_of_le x _ h]

end Sys2Proof.Machine
end

section
/-! PROOFS. The index register and the decimal store of spec/43_index_memory.md: LD I,addr and LD F,Vx (R130, R132), and LD B,Vx (R133), which is
`storeFromI` with the three decimal digits. -/

namespace Sys2Proof.Machine

/-! ### The loads of I -/

/-- The common effect of the two loads of I: `a` goes to I, then `advance(2)`. -/
def writeIThenAdvance (a : Addr) (s : State) : Result := advance 2 (s.setI a)

/-- I and PC change and nothing else does. -/
theorem writeIThenAdvance_of_le (a : Addr) {s : State} (h : s.pc.toNat + 2 ≤ 0xFFF) :
    writeIThenAdvance a s = .next { s with i := a, pc := BitVec.ofNat 12 (s.pc.toNat + 2) } :=
  advance_of_le_ofNat h

theorem exec_ldI (nnn : Addr) (s : State) : exec (.ldI nnn) s = writeIThenAdvance nnn s := rfl

theorem exec_ldF_of_gt {x : Reg} {s : State} (h : 0xF < (s.reg x).toNat) :
    exec (.ldF x) s = .fault .invalidRegisterValue := by
  simp only [exec, execLdF, keyIndex_eq_none.2 h, raise]

theorem exec_ldF_of_le {x : Reg} {s : State} (h : (s.reg x).toNat ≤ 0xF) :
    exec (.ldF x) s = writeIThenAdvance (BitVec.ofNat 12 (5 * (s.reg x).toNat)) s := by
  have hkey : keyIndex (s.reg x) = some ⟨(s.reg x).toNat, Nat.lt_succ_of_le h⟩ := keyIndex_eq_some.2 rfl
  simp only [exec, execLdF, hkey, writeIThenAdvance]

/-! ### What a store from I leaves -/

/-- Memory and PC change and nothing else does. -/
theorem storeFromI_of_inside {last : Nat} (bs : List Byte) {s : State} (hlow : 0x200 ≤ s.i.toNat)
    (hhigh : s.i.toNat + last ≤ 0xFFF) (hpc : s.pc.toNat + 2 ≤ 0xFFF) :
    storeFromI last bs s = .next { s with
      mem := (s.writeBytes s.i.toNat bs).mem, pc := BitVec.ofNat 12 (s.pc.toNat + 2) } :=
  storeFromI_eq_next.2 ⟨⟨hlow, hhigh⟩, hpc, by rw [addr_add_eq_ofNat]; rfl⟩

theorem storeFromI_of_low_or_high {last : Nat} {bs : List Byte} {s : State}
    (h : s.i.toNat < 0x200 ∨ 0xFFF < s.i.toNat + last) : storeFromI last bs s = .fault .addressOutOfRange := by
  refine storeFromI_of_outside fun hall => ?_
  have hfirst := hall 0 (Nat.zero_le last)
  have hlast := hall last le_rfl
  omega

theorem storeFromI_readByte_inside {last k : Nat} {bs : List Byte} {s t : State} (h : storeFromI last bs s = .next t)
    (hk : k < bs.length) : t.readByte (s.i.toNat + k) = bs[k] := by
  obtain ⟨-, -, rfl⟩ := storeFromI_eq_next.1 h
  exact State.readByte_writeBytes_inside s hk

theorem storeFromI_readByte_outside {last a : Nat} {bs : List Byte} {s t : State} (h : storeFromI last bs s = .next t)
    (ha : a < s.i.toNat ∨ s.i.toNat + bs.length ≤ a) : t.readByte a = s.readByte a := by
  obtain ⟨-, -, rfl⟩ := storeFromI_eq_next.1 h
  exact State.readByte_writeBytes_outside s ha

/-! ### The decimal digits -/

/-- No digit is cut off by the byte that holds it. -/
theorem map_toNat_decimalDigits (b : Byte) :
    (decimalDigits b).map BitVec.toNat = [b.toNat / 100, b.toNat / 10 % 10, b.toNat % 10] := by
  have hb := b.isLt
  simp only [decimalDigits, List.map_cons, List.map_nil, BitVec.toNat_ofNat, List.cons.injEq, and_true]
  omega

theorem exec_ldB_readByte {x : Reg} {s t : State} (h : exec (.ldB x) s = .next t) :
    (t.readByte s.i.toNat).toNat = (s.reg x).toNat / 100 ∧
    (t.readByte (s.i.toNat + 1)).toNat = (s.reg x).toNat / 10 % 10 ∧
    (t.readByte (s.i.toNat + 2)).toNat = (s.reg x).toNat % 10 := by
  have hdigit (k : Nat) (hk : k < 3) : (t.readByte (s.i.toNat + k)).toNat =
      [(s.reg x).toNat / 100, (s.reg x).toNat / 10 % 10, (s.reg x).toNat % 10][k] := by
    rw [storeFromI_readByte_inside (exec_ldB x s ▸ h) (length_decimalDigits _ ▸ hk)]
    simp only [← map_toNat_decimalDigits, List.getElem_map]
  exact ⟨hdigit 0 (by decide), hdigit 1 (by decide), hdigit 2 (by decide)⟩

/-! ### The statements -/

/-- Settles O25: both load I and advance, `LD F,Vx` once V[X] is found to be a digit. -/
theorem indexLoadsSetI : Obligations.IndexLoadsSetI := by
  refine fun nnn x s => ⟨⟨rfl, fun hpc => ?_⟩, ⟨rfl, exec_ldF_of_gt, fun hdigit hpc => ?_⟩⟩
  · rw [exec_ldI, writeIThenAdvance_of_le nnn hpc]
  · rw [exec_ldF_of_le hdigit, writeIThenAdvance_of_le _ hpc]

/-- Settles O27: `LD B,Vx` is the checked store of three bytes from I upward, the bytes being the digits of V[X]. -/
theorem storeDecimalWritesThreeDigits : Obligations.StoreDecimalWritesThreeDigits := by
  refine fun x s => ⟨rfl, fun hout => storeFromI_of_low_or_high hout, fun hlow hhigh hpc => ?_⟩
  have hnext := storeFromI_of_inside (decimalDigits (s.reg x)) hlow hhigh hpc
  obtain ⟨hhundreds, htens, hunits⟩ := exec_ldB_readByte (x := x) hnext
  exact ⟨_, hnext, rfl, hhundreds, htens, hunits, fun a ha => storeFromI_readByte_outside hnext ha⟩

end Sys2Proof.Machine
end

section
/-! PROOFS. The timer write of spec/45_keypad_timers.md: LD DT,Vx (R155). -/

namespace Sys2Proof.Machine

theorem exec_ldDtVx (x : Reg) (s : State) : exec (.ldDtVx x) s = advance 2 (s.setDt (s.reg x)) := rfl

/-- DT and PC change and nothing else does. -/
theorem advance_setDt_of_le (b : Byte) {s : State} (h : s.pc.toNat + 2 ≤ 0xFFF) :
    advance 2 (s.setDt b) = .next { s with dt := b, pc := BitVec.ofNat 12 (s.pc.toNat + 2) } :=
  advance_of_le_ofNat h

/-- Settles O39: the write of DT leaves PC alone, so the advance completes where it would have before the write. -/
theorem delayTimerIsSet : Obligations.DelayTimerIsSet := by
  refine fun x s h => ⟨rfl, ?_⟩
  rw [exec_ldDtVx, advance_setDt_of_le (s.reg x) h]

end Sys2Proof.Machine
end

section
/-! PROOFS. The host's timer tick of spec/60_exceptions.md (R174): each timer goes down by one and stops at zero. -/

namespace Sys2Proof.Machine

/-- The decrement that `hostTick` writes with a test for zero is the truncated subtraction of the naturals. -/
theorem decrement_eq_ofNat (b : Byte) : (if b = 0#8 then 0#8 else b - 1#8) = BitVec.ofNat 8 (b.toNat - 1) := by
  split
  case isTrue hzero => rw [hzero]; rfl
  case isFalse hnz => bv_omega

/-- Going down by one crosses the sound edge from 1 only, and never switches the sound on. -/
theorem soundEdges_decrement (b : Byte) :
    soundEdges b (BitVec.ofNat 8 (b.toNat - 1)) = if b = 1#8 then [.soundOff] else [] := by
  have hnew : BitVec.ofNat 8 (b.toNat - 1) = 0#8 ↔ b = 0#8 ∨ b = 1#8 := by bv_omega
  by_cases hzero : b = 0#8
  · simp [soundEdges, hzero]
  · simp [soundEdges, hnew, hzero]

theorem operate_tick (s : State) : operate .tick s = .next (hostTick s) := rfl

/-- DT, ST and the events change and nothing else does. -/
theorem hostTick_eq (s : State) : hostTick s =
    { s with dt := BitVec.ofNat 8 (s.dt.toNat - 1), st := BitVec.ofNat 8 (s.st.toNat - 1),
             events := s.events ++ (if s.st = 1#8 then [.soundOff] else []) } := by
  rw [hostTick, decrement_eq_ofNat, decrement_eq_ofNat, ← soundEdges_decrement]
  rfl

/-- Settles O42: `Tick` is total and does not look at the mode, and the sound edge it makes is the one from 1 to 0. -/
theorem tickDecrementsTheTimers : Obligations.TickDecrementsTheTimers := by
  intro s
  rw [operate_tick, hostTick_eq]

end Sys2Proof.Machine
end

section
/-! PROOFS. Decoding and encoding are inverse to each other (spec/30_encoding.md R84), a word's row decides how it decodes (R76), and the words that
hold no instruction are the listed ones (R80). -/

namespace Sys2Proof

/-! ### A row's mask as arithmetic -/

theorem toNat_and_F000 (w : Word) : (w &&& 0xF000#16).toNat = w.toNat / 0x1000 * 0x1000 := by
  have := w.isLt
  rw [Laws.OpcodeRow.and_F000, BitVec.toNat_shiftLeft, BitVec.toNat_ushiftRight, Nat.shiftRight_eq_div_pow, Nat.shiftLeft_eq]
  omega

/-- The minor opcode of format R, the N nibble, stands beside the type nibble. -/
theorem toNat_and_F00F (w : Word) : (w &&& 0xF00F#16).toNat = w.toNat / 0x1000 * 0x1000 + w.toNat % 0x10 := by
  have := w.isLt
  have hn : (w <<< 12 >>> 12).toNat = w.toNat % 0x10 := by
    simp only [BitVec.toNat_shiftLeft, BitVec.toNat_ushiftRight, Nat.shiftRight_eq_div_pow, Nat.shiftLeft_eq]; omega
  rw [Laws.OpcodeRow.and_F00F, ← Laws.OpcodeRow.and_F000, BitVec.toNat_or, hn, toNat_and_F000, Nat.mul_comm,
    ← Nat.two_pow_add_eq_or_of_lt (i := 12) (by omega)]

/-- The minor opcode of format U, the byte NN, stands beside the type nibble. -/
theorem toNat_and_F0FF (w : Word) : (w &&& 0xF0FF#16).toNat = w.toNat / 0x1000 * 0x1000 + w.toNat % 0x100 := by
  have := w.isLt
  have hnn : (w <<< 8 >>> 8).toNat = w.toNat % 0x100 := by
    simp only [BitVec.toNat_shiftLeft, BitVec.toNat_ushiftRight, Nat.shiftRight_eq_div_pow, Nat.shiftLeft_eq]; omega
  rw [Laws.OpcodeRow.and_F0FF, ← Laws.OpcodeRow.and_F000, BitVec.toNat_or, hnn, toNat_and_F000, Nat.mul_comm,
    ← Nat.two_pow_add_eq_or_of_lt (i := 12) (by omega)]

theorem type_of_and_F000 {w p : Word} (h : w &&& 0xF000#16 = p) : (fields w).type.val = p.toNat / 0x1000 := by
  have := w.isLt
  rw [fields_type, ← h, toNat_and_F000]; omega

theorem type_n_of_and_F00F {w p : Word} (h : w &&& 0xF00F#16 = p) :
    (fields w).type.val = p.toNat / 0x1000 ∧ (fields w).n.val = p.toNat % 0x10 := by
  have := w.isLt
  rw [fields_type, fields_n, ← h, toNat_and_F00F]; omega

theorem type_nn_of_and_F0FF {w p : Word} (h : w &&& 0xF0FF#16 = p) :
    (fields w).type.val = p.toNat / 0x1000 ∧ (fields w).nn.toNat = p.toNat % 0x100 := by
  have := w.isLt
  rw [fields_type, fields_nn, ← h, toNat_and_F0FF]; omega

/-! ### The instruction of a row with the operands of a word -/

/-- The instruction in the row of the given one whose operands are the fields of a word (30_encoding.md R73, R74). -/
def Instr.withOperands : Instr → Fields → Instr
  | .cls, _ => .cls
  | .ret, _ => .ret
  | .sys _, f => .sys f.nnn
  | .jp _, f => .jp f.nnn
  | .call _, f => .call f.nnn
  | .seByte _ _, f => .seByte f.x f.nn
  | .sneByte _ _, f => .sneByte f.x f.nn
  | .seReg _ _, f => .seReg f.x f.y
  | .ldByte _ _, f => .ldByte f.x f.nn
  | .addByte _ _, f => .addByte f.x f.nn
  | .ldReg _ _, f => .ldReg f.x f.y
  | .orReg _ _, f => .orReg f.x f.y
  | .andReg _ _, f => .andReg f.x f.y
  | .xorReg _ _, f => .xorReg f.x f.y
  | .addReg _ _, f => .addReg f.x f.y
  | .sub _ _, f => .sub f.x f.y
  | .shr _ _, f => .shr f.x f.y
  | .subn _ _, f => .subn f.x f.y
  | .shl _ _, f => .shl f.x f.y
  | .sneReg _ _, f => .sneReg f.x f.y
  | .ldI _, f => .ldI f.nnn
  | .jpV0 _, f => .jpV0 f.nnn
  | .rnd _ _, f => .rnd f.x f.nn
  | .drw _ _ _, f => .drw f.x f.y f.n
  | .skp _, f => .skp f.x
  | .sknp _, f => .sknp f.x
  | .ldVxDt _, f => .ldVxDt f.x
  | .ldVxK _, f => .ldVxK f.x
  | .ldDtVx _, f => .ldDtVx f.x
  | .ldStVx _, f => .ldStVx f.x
  | .addI _, f => .addI f.x
  | .ldF _, f => .ldF f.x
  | .ldB _, f => .ldB f.x
  | .storeRegs _, f => .storeRegs f.x
  | .loadRegs _, f => .loadRegs f.x

theorem row_withOperands (i : Instr) (f : Fields) : (i.withOperands f).row = i.row := by
  cases i <;> rfl

/-- The row's mask and pattern alone decide how a word decodes, but for the two words taken out of `SYS` (30_encoding.md R76). -/
theorem decodeWord_of_match {w : Word} {i : Instr} (h : w &&& i.row.mask = i.row.pattern)
    (hsys : i.row.mnemonic = "SYS_addr" → w ≠ 0x00E0#16 ∧ w ≠ 0x00EE#16) :
    decodeWord w = .ok (i.withOperands (fields w)) := by
  cases i with
  | cls | ret =>
    obtain rfl := (BitVec.and_allOnes (x := w)).symm.trans h
    rfl
  | sys =>
    obtain ⟨hcls, hret⟩ := hsys rfl
    have ht := type_of_and_F000 h
    simp [decodeWord, ht, hcls, hret, Instr.row, Instr.withOperands, -fields_type, -fields_n, -fields_nn]
  | jp | call | seByte | sneByte | ldByte | addByte | ldI | jpV0 | rnd | drw =>
    have ht := type_of_and_F000 h
    simp [decodeWord, ht, Instr.row, Instr.withOperands, -fields_type, -fields_n, -fields_nn]
  | seReg | sneReg =>
    obtain ⟨ht, hn⟩ := type_n_of_and_F00F h
    simp [decodeWord, ht, Fin.ext_iff, hn, Instr.row, Instr.withOperands, -fields_type, -fields_n, -fields_nn]
  | ldReg | orReg | andReg | xorReg | addReg | sub | shr | subn | shl =>
    obtain ⟨ht, hn⟩ := type_n_of_and_F00F h
    simp [decodeWord, ht, decode8, hn, Instr.row, Instr.withOperands, -fields_type, -fields_n, -fields_nn]
  | skp | sknp =>
    obtain ⟨ht, hnn⟩ := type_nn_of_and_F0FF h
    simp [decodeWord, ht, decodeE, hnn, Instr.row, Instr.withOperands, -fields_type, -fields_n, -fields_nn]
  | ldVxDt | ldVxK | ldDtVx | ldStVx | addI | ldF | ldB | storeRegs | loadRegs =>
    obtain ⟨ht, hnn⟩ := type_nn_of_and_F0FF h
    simp [decodeWord, ht, decodeF, hnn, Instr.row, Instr.withOperands, -fields_type, -fields_n, -fields_nn]

/-! ### The operands read back from an encoding -/

theorem nnn_of_operandsA {p : Nat} (hp : p % 0x1000 = 0) (nnn : Addr) :
    (fields (BitVec.ofNat 16 (p + operandsA nnn))).nnn = nnn := by
  apply BitVec.eq_of_toNat_eq
  have := nnn.isLt
  simp only [fields_nnn, BitVec.toNat_ofNat, operandsA]; omega

theorem x_nn_of_operandsI {p : Nat} (hp : p % 0x1000 = 0) (x : Reg) (nn : Byte) :
    (fields (BitVec.ofNat 16 (p + operandsI x nn))).x = x ∧ (fields (BitVec.ofNat 16 (p + operandsI x nn))).nn = nn := by
  have := nn.isLt
  rw [Fin.ext_iff, ← BitVec.toNat_inj]
  simp only [fields_x, fields_nn, BitVec.toNat_ofNat, operandsI]; omega

/-- The minor opcode in bits 3:0 does not disturb the registers of format R. -/
theorem x_y_of_operandsR {p : Nat} (hp : p % 0x1000 < 0x10) (x y : Reg) :
    (fields (BitVec.ofNat 16 (p + operandsR x y))).x = x ∧ (fields (BitVec.ofNat 16 (p + operandsR x y))).y = y := by
  rw [Fin.ext_iff, Fin.ext_iff]
  simp only [fields_x, fields_y, BitVec.toNat_ofNat, operandsR]; omega

theorem x_y_n_of_operandsD {p : Nat} (hp : p % 0x1000 = 0) (x y : Reg) (n : Fin 16) :
    (fields (BitVec.ofNat 16 (p + operandsD x y n))).x = x ∧ (fields (BitVec.ofNat 16 (p + operandsD x y n))).y = y ∧
      (fields (BitVec.ofNat 16 (p + operandsD x y n))).n = n := by
  rw [Fin.ext_iff, Fin.ext_iff, Fin.ext_iff]
  simp only [fields_x, fields_y, fields_n, BitVec.toNat_ofNat, operandsD]; omega

/-- The minor opcode in bits 7:0 does not disturb the register of format U. -/
theorem x_of_operandsU {p : Nat} (hp : p % 0x1000 < 0x100) (x : Reg) :
    (fields (BitVec.ofNat 16 (p + operandsU x))).x = x := by
  rw [Fin.ext_iff]
  simp only [fields_x, BitVec.toNat_ofNat, operandsU]; omega

theorem withOperands_encode (i : Instr) : i.withOperands (fields (encode i)) = i := by
  cases i with
  | cls | ret => rfl
  | sys nnn => simpa [Instr.withOperands, encode, Instr.operands, Instr.row] using nnn_of_operandsA (p := 0) rfl nnn
  | jp nnn | call nnn | ldI nnn | jpV0 nnn =>
    simp [Instr.withOperands, encode, Instr.operands, Instr.row, nnn_of_operandsA]
  | seByte x nn | sneByte x nn | ldByte x nn | addByte x nn | rnd x nn =>
    simp [Instr.withOperands, encode, Instr.operands, Instr.row, x_nn_of_operandsI]
  | seReg x y | ldReg x y | orReg x y | andReg x y | xorReg x y | addReg x y | sub x y | shr x y | subn x y | shl x y | sneReg x y =>
    simp [Instr.withOperands, encode, Instr.operands, Instr.row, x_y_of_operandsR]
  | drw x y n => simp [Instr.withOperands, encode, Instr.operands, Instr.row, x_y_n_of_operandsD]
  | skp x | sknp x | ldVxDt x | ldVxK x | ldDtVx x | ldStVx x | addI x | ldF x | ldB x | storeRegs x | loadRegs x =>
    simp [Instr.withOperands, encode, Instr.operands, Instr.row, x_of_operandsU]

theorem opcodeRow : ∀ i : Instr, Laws.OpcodeRow.Statement i
  | .cls => Laws.OpcodeRow.cls
  | .ret => Laws.OpcodeRow.ret
  | .sys a => Laws.OpcodeRow.sys a
  | .jp a => Laws.OpcodeRow.jp a
  | .call a => Laws.OpcodeRow.call a
  | .seByte a b => Laws.OpcodeRow.seByte a b
  | .sneByte a b => Laws.OpcodeRow.sneByte a b
  | .seReg a b => Laws.OpcodeRow.seReg a b
  | .ldByte a b => Laws.OpcodeRow.ldByte a b
  | .addByte a b => Laws.OpcodeRow.addByte a b
  | .ldReg a b => Laws.OpcodeRow.ldReg a b
  | .orReg a b => Laws.OpcodeRow.orReg a b
  | .andReg a b => Laws.OpcodeRow.andReg a b
  | .xorReg a b => Laws.OpcodeRow.xorReg a b
  | .addReg a b => Laws.OpcodeRow.addReg a b
  | .sub a b => Laws.OpcodeRow.sub a b
  | .shr a b => Laws.OpcodeRow.shr a b
  | .subn a b => Laws.OpcodeRow.subn a b
  | .shl a b => Laws.OpcodeRow.shl a b
  | .sneReg a b => Laws.OpcodeRow.sneReg a b
  | .ldI a => Laws.OpcodeRow.ldI a
  | .jpV0 a => Laws.OpcodeRow.jpV0 a
  | .rnd a b => Laws.OpcodeRow.rnd a b
  | .drw a b c => Laws.OpcodeRow.drw a b c
  | .skp a => Laws.OpcodeRow.skp a
  | .sknp a => Laws.OpcodeRow.sknp a
  | .ldVxDt a => Laws.OpcodeRow.ldVxDt a
  | .ldVxK a => Laws.OpcodeRow.ldVxK a
  | .ldDtVx a => Laws.OpcodeRow.ldDtVx a
  | .ldStVx a => Laws.OpcodeRow.ldStVx a
  | .addI a => Laws.OpcodeRow.addI a
  | .ldF a => Laws.OpcodeRow.ldF a
  | .ldB a => Laws.OpcodeRow.ldB a
  | .storeRegs a => Laws.OpcodeRow.storeRegs a
  | .loadRegs a => Laws.OpcodeRow.loadRegs a

theorem encode_and_mask (i : Instr) : encode i &&& i.row.mask = i.row.pattern := (opcodeRow i).1

/-! ### The words taken out of SYS -/

theorem row_mnemonic_eq_sys {i : Instr} : i.row.mnemonic = "SYS_addr" ↔ ∃ nnn, i = .sys nnn := by
  cases i <;> simp [Instr.row]

theorem toNat_encode_sys (nnn : Addr) : (encode (.sys nnn)).toNat = nnn.toNat := by
  have := nnn.isLt
  simp only [encode, Instr.row, Instr.operands, operandsA, BitVec.toNat_ofNat]; omega

theorem wellFormed_sys_iff {nnn : Addr} : (Instr.sys nnn).wellFormed = true ↔
    encode (.sys nnn) ≠ 0x00E0#16 ∧ encode (.sys nnn) ≠ 0x00EE#16 := by
  simp [Instr.wellFormed, ← BitVec.toNat_inj, toNat_encode_sys]

theorem encode_ne_of_sys_row {i : Instr} (h : i.wellFormed = true) (hrow : i.row.mnemonic = "SYS_addr") :
    encode i ≠ 0x00E0#16 ∧ encode i ≠ 0x00EE#16 := by
  obtain ⟨nnn, rfl⟩ := row_mnemonic_eq_sys.1 hrow
  exact wellFormed_sys_iff.1 h

theorem decodeWord_encode {i : Instr} (h : i.wellFormed = true) : decodeWord (encode i) = .ok i := by
  rw [decodeWord_of_match (encode_and_mask i) (encode_ne_of_sys_row h), withOperands_encode]

/-! ### The word made again from its fields -/

theorem ofNat_operandsA {w : Word} {p : Nat} (ht : (fields w).type.val = p) :
    BitVec.ofNat 16 (p * 0x1000 + operandsA (fields w).nnn) = w := by
  apply BitVec.eq_of_toNat_eq
  have := w.isLt
  rw [fields_type] at ht
  simp only [operandsA, fields_nnn, BitVec.toNat_ofNat]; omega

theorem ofNat_operandsI {w : Word} {p : Nat} (ht : (fields w).type.val = p) :
    BitVec.ofNat 16 (p * 0x1000 + operandsI (fields w).x (fields w).nn) = w := by
  apply BitVec.eq_of_toNat_eq
  have := w.isLt
  rw [fields_type] at ht
  simp only [operandsI, fields_x, fields_nn, BitVec.toNat_ofNat]; omega

theorem ofNat_operandsR {w : Word} {p m : Nat} (ht : (fields w).type.val = p) (hn : (fields w).n.val = m) :
    BitVec.ofNat 16 (p * 0x1000 + m + operandsR (fields w).x (fields w).y) = w := by
  apply BitVec.eq_of_toNat_eq
  have := w.isLt
  rw [fields_type] at ht
  rw [fields_n] at hn
  simp only [operandsR, fields_x, fields_y, BitVec.toNat_ofNat]; omega

theorem ofNat_operandsD {w : Word} {p : Nat} (ht : (fields w).type.val = p) :
    BitVec.ofNat 16 (p * 0x1000 + operandsD (fields w).x (fields w).y (fields w).n) = w := by
  apply BitVec.eq_of_toNat_eq
  have := w.isLt
  rw [fields_type] at ht
  simp only [operandsD, fields_x, fields_y, fields_n, BitVec.toNat_ofNat]; omega

theorem ofNat_operandsU {w : Word} {p m : Nat} (ht : (fields w).type.val = p) (hnn : (fields w).nn.toNat = m) :
    BitVec.ofNat 16 (p * 0x1000 + m + operandsU (fields w).x) = w := by
  apply BitVec.eq_of_toNat_eq
  have := w.isLt
  rw [fields_type] at ht
  rw [fields_nn] at hnn
  simp only [operandsU, fields_x, BitVec.toNat_ofNat]; omega

theorem encode_of_decode8 {w : Word} {i : Instr} (ht : (fields w).type.val = 0x8) (h : decode8 (fields w) = .ok i) :
    i.wellFormed = true ∧ encode i = w := by
  unfold decode8 at h
  split at h
  case h_10 => cases h
  all_goals
    next hn =>
    cases h
    exact ⟨rfl, ofNat_operandsR ht hn⟩

theorem encode_of_decodeE {w : Word} {i : Instr} (ht : (fields w).type.val = 0xE) (h : decodeE (fields w) = .ok i) :
    i.wellFormed = true ∧ encode i = w := by
  unfold decodeE at h
  split at h
  case h_3 => cases h
  all_goals
    next hnn =>
    cases h
    exact ⟨rfl, ofNat_operandsU ht hnn⟩

theorem encode_of_decodeF {w : Word} {i : Instr} (ht : (fields w).type.val = 0xF) (h : decodeF (fields w) = .ok i) :
    i.wellFormed = true ∧ encode i = w := by
  unfold decodeF at h
  split at h
  case h_10 => cases h
  all_goals
    next hnn =>
    cases h
    exact ⟨rfl, ofNat_operandsU ht hnn⟩

theorem encode_of_decodeWord {w : Word} {i : Instr} (h : decodeWord w = .ok i) : i.wellFormed = true ∧ encode i = w := by
  simp only [decodeWord] at h
  split at h
  case h_1 ht =>
    have hsys : encode (.sys (fields w).nnn) = w := ofNat_operandsA ht
    split at h
    · next hw => cases h; exact ⟨rfl, hw.symm⟩
    · next hcls =>
      split at h
      · next hw => cases h; exact ⟨rfl, hw.symm⟩
      · next hret => cases h; exact ⟨wellFormed_sys_iff.2 (hsys.symm ▸ ⟨hcls, hret⟩), hsys⟩
  case h_2 ht | h_3 ht | h_11 ht | h_12 ht => cases h; exact ⟨rfl, ofNat_operandsA ht⟩
  case h_4 ht | h_5 ht | h_7 ht | h_8 ht | h_13 ht => cases h; exact ⟨rfl, ofNat_operandsI ht⟩
  case h_6 ht | h_10 ht =>
    split at h
    · next hn => cases h; exact ⟨rfl, ofNat_operandsR ht (congrArg Fin.val hn)⟩
    · cases h
  case h_9 ht => exact encode_of_decode8 ht h
  case h_14 ht => cases h; exact ⟨rfl, ofNat_operandsD ht⟩
  case h_15 ht => exact encode_of_decodeE ht h
  case h_16 =>
    have ht : (fields w).type.val = 0xF := by
      have := (fields w).type.isLt
      simp only [imp_false] at *; omega
    exact encode_of_decodeF ht h

/-! ### The words that hold no instruction -/

theorem decode8_fails_iff (f : Fields) : (∃ e, decode8 f = .error e) ↔
    f.n.val = 0x8 ∨ f.n.val = 0x9 ∨ f.n.val = 0xA ∨ f.n.val = 0xB ∨ f.n.val = 0xC ∨ f.n.val = 0xD ∨ f.n.val = 0xF := by
  unfold decode8
  split
  case h_10 =>
    have := f.n.isLt
    simp only [imp_false, Except.error.injEq, exists_eq', true_iff] at *; omega
  all_goals
    next hn => simp [hn]

theorem decodeE_fails_iff (f : Fields) :
    (∃ e, decodeE f = .error e) ↔ f.nn.toNat ≠ 0x9E ∧ f.nn.toNat ≠ 0xA1 := by
  unfold decodeE
  split
  case h_3 h9E hA1 => simpa using ⟨h9E, hA1⟩
  all_goals
    next hnn => simp [hnn]

theorem decodeF_fails_iff (f : Fields) : (∃ e, decodeF f = .error e) ↔
    f.nn.toNat ≠ 0x07 ∧ f.nn.toNat ≠ 0x0A ∧ f.nn.toNat ≠ 0x15 ∧ f.nn.toNat ≠ 0x18 ∧ f.nn.toNat ≠ 0x1E ∧ f.nn.toNat ≠ 0x29 ∧
      f.nn.toNat ≠ 0x33 ∧ f.nn.toNat ≠ 0x55 ∧ f.nn.toNat ≠ 0x65 := by
  unfold decodeF
  split
  case h_10 => simp only [imp_false, Except.error.injEq, exists_eq', true_iff] at *; omega
  all_goals
    next hnn => simp [hnn]

/-- The groups of 30_encoding.md R80, by the type nibble. -/
theorem decodeWord_fails_iff (w : Word) : (∃ e, decodeWord w = .error e) ↔
    ((fields w).type.val = 0x5 ∧ (fields w).n ≠ 0) ∨ ((fields w).type.val = 0x8 ∧ ∃ e, decode8 (fields w) = .error e) ∨
    ((fields w).type.val = 0x9 ∧ (fields w).n ≠ 0) ∨ ((fields w).type.val = 0xE ∧ ∃ e, decodeE (fields w) = .error e) ∨
    ((fields w).type.val = 0xF ∧ ∃ e, decodeF (fields w) = .error e) := by
  simp only [decodeWord]
  split
  case h_1 ht => split_ifs <;> simp [ht, -fields_type]
  case h_6 ht | h_10 ht => split <;> simp_all [-fields_type]
  case h_16 =>
    have ht : (fields w).type.val = 0xF := by
      have := (fields w).type.isLt
      simp only [imp_false] at *; omega
    simp [ht, -fields_type]
  all_goals
    next ht => simp [ht, -fields_type]

theorem decodeWord_eq_sys_iff (w : Word) :
    (∃ nnn, decodeWord w = .ok (.sys nnn)) ↔ (fields w).type.val = 0 ∧ w ≠ 0x00E0#16 ∧ w ≠ 0x00EE#16 := by
  constructor
  · rintro ⟨nnn, h⟩
    obtain ⟨hwf, rfl⟩ := encode_of_decodeWord h
    have := nnn.isLt
    refine ⟨?_, wellFormed_sys_iff.1 hwf⟩
    rw [fields_type, toNat_encode_sys]; omega
  · rintro ⟨ht, hcls, hret⟩
    exact ⟨(fields w).nnn, by simp [decodeWord, ht, hcls, hret, -fields_type]⟩

/-! ### The statements -/

/-- Settles O1: the two bytes are the word again, and the word matches its row, so that only the operands remain to be read back. -/
theorem decodeOfEncodeIsIdentity : Obligations.DecodeOfEncodeIsIdentity := by
  intro i rest hwf
  rw [decodeBytes_of_word, decodeWord_encode hwf]

/-- Settles O2: in each branch of the decoder the type nibble, the minor opcode and the operands make up the whole word. -/
theorem encodeOfDecodeIsIdentity : Obligations.EncodeOfDecodeIsIdentity :=
  fun _ _ => encode_of_decodeWord

/-- Settles O3: the decoder fails in five of its branches, each selected by the type nibble and refined by N or NN. -/
theorem illegalWordsAreTheListedOnes : Obligations.IllegalWordsAreTheListedOnes := by
  intro w
  have ht : (fields w).type.val = w.toNat / 0x1000 := by rw [fields_type_eq_shiftRight, Nat.shiftRight_eq_div_pow]
  refine ⟨?_, by rw [decodeWord_eq_sys_iff, ht]⟩
  rw [decodeWord_fails_iff, decode8_fails_iff, decodeE_fails_iff, decodeF_fails_iff, ht]
  simp only [ne_eq, Fin.ext_iff, fields_n, fields_nn, Fin.val_zero]

/-- Settles O4: a decoded word is an encoding, which matches its row; and a match decides how the word decodes. -/
theorem opcodeTableSelectsTheInstruction : Obligations.OpcodeTableSelectsTheInstruction := by
  intro w i
  constructor
  · rintro ⟨j, hj, hrow⟩
    obtain ⟨hwf, rfl⟩ := encode_of_decodeWord hj
    rw [← hrow]
    exact ⟨encode_and_mask j, encode_ne_of_sys_row hwf⟩
  · rintro ⟨hmask, hsys⟩
    exact ⟨_, decodeWord_of_match hmask hsys, row_withOperands i _⟩

end Sys2Proof
end

section
/-! PROOFS. The common shape of the 35 instructions (spec/40_execution_cycle.md R93 to R95; 60_exceptions.md R169): an instruction makes its own check,
then needs the address a few bytes after PC to exist, and then takes its effect and goes on at its next PC. `exec_eq` ties this reading to `exec`. -/

namespace Sys2Proof.Machine

/-! ### The four parts of an instruction -/

/-- The error of an instruction's own check, if it does not pass (60_exceptions.md R161 to R168). -/
def ownCheck : Instr → State → Option Fault
  | .sys _, _ => some .illegalInstruction
  | .ret, s => if s.sp.val = 0 then some .stackUnderflow else none
  | .jp nnn, _ => if 0x200 ≤ nnn.toNat then none else some .invalidJumpTarget
  | .jpV0 nnn, s =>
    if 0x200 ≤ (s.reg 0).toNat + nnn.toNat ∧ (s.reg 0).toNat + nnn.toNat ≤ 0xFFF then none else some .invalidJumpTarget
  | .call nnn, s =>
    if 0x200 ≤ nnn.toNat then if s.sp.val = 16 then some .stackOverflow else none else some .invalidJumpTarget
  | .shr _ y, s => if shiftRefused y s then some .illegalInstruction else none
  | .shl _ y, s => if shiftRefused y s then some .illegalInstruction else none
  | .skp x, s => if (s.reg x).toNat ≤ 0xF then none else some .invalidRegisterValue
  | .sknp x, s => if (s.reg x).toNat ≤ 0xF then none else some .invalidRegisterValue
  | .ldF x, s => if (s.reg x).toNat ≤ 0xF then none else some .invalidRegisterValue
  | .addI x, s => if s.i.toNat + (s.reg x).toNat ≤ 0xFFF then none else some .addressOverflow
  | .drw x y n, s =>
    if !spriteReadOk s n then some .addressOverflow
    else if s.config.drawEdge == .error && !spriteBoxOk s x y n then some .drawOutOfBounds else none
  | .ldB _, s => if storeRangeOk s 2 then none else some .addressOutOfRange
  | .storeRegs x, s => if storeRangeOk s x.val then none else some .addressOutOfRange
  | .loadRegs x, s => if loadRangeOk s x.val then none else some .addressOverflow
  | _, _ => none

/-- The key numbered V[x] is down (45_keypad_timers.md R150, R151). -/
def keyDown (s : State) (x : Reg) : Bool := (keyIndex (s.reg x)).any fun k => s.keys[k]

/-- How far past PC an instruction needs the address space to reach: what it adds to PC, or the 2 of a return address or of a later advance; `RET` and
the jumps need nothing (40_execution_cycle.md R95; D1, log 12). -/
def room : Instr → State → Nat
  | .ret, _ => 0
  | .jp _, _ => 0
  | .jpV0 _, _ => 0
  | .seByte x nn, s => if s.reg x == nn then 4 else 2
  | .sneByte x nn, s => if s.reg x != nn then 4 else 2
  | .seReg x y, s => if s.reg x == s.reg y then 4 else 2
  | .sneReg x y, s => if s.reg x != s.reg y then 4 else 2
  | .skp x, s => if keyDown s x then 4 else 2
  | .sknp x, s => if !keyDown s x then 4 else 2
  | _, _ => 2

/-- Where a completed instruction leaves PC. -/
def nextPc : Instr → State → Addr
  | .ret, s => s.stack[s.sp.val - 1]
  | .jp nnn, _ => nnn
  | .jpV0 nnn, s => BitVec.ofNat 12 ((s.reg 0).toNat + nnn.toNat)
  | .call nnn, _ => nnn
  | .ldVxK _, s => s.pc
  | i, s => BitVec.ofNat 12 (s.pc.toNat + room i s)

/-- What a completed instruction leaves apart from PC. -/
def effect : Instr → State → State
  | .cls, s => (s.setFb FrameBuffer.clear).emit [.drawNotify]
  | .ret, s => { s with sp := ⟨s.sp.val - 1, by omega⟩ }
  | .call _, s => (s.push (s.pc + 2#12)).getD s
  | .ldByte x nn, s => s.setReg x nn
  | .addByte x nn, s => s.setReg x (s.reg x + nn)
  | .ldReg x y, s => s.setReg x (s.reg y)
  | .orReg x y, s => s.setReg x (s.reg x ||| s.reg y)
  | .andReg x y, s => s.setReg x (s.reg x &&& s.reg y)
  | .xorReg x y, s => s.setReg x (s.reg x ^^^ s.reg y)
  | .addReg x y, s => s.setRegThenFlag x (s.reg x + s.reg y) (carryFlag (s.reg x) (s.reg y))
  | .sub x y, s => s.setRegThenFlag x (s.reg x - s.reg y) (greaterFlag (s.reg x) (s.reg y))
  | .subn x y, s => s.setRegThenFlag x (s.reg y - s.reg x) (greaterFlag (s.reg y) (s.reg x))
  | .shr x _, s => s.setFlagThenReg x (s.reg x >>> 1) (lowBitFlag (s.reg x))
  | .shl x _, s => s.setFlagThenReg x (s.reg x <<< 1) (highBitFlag (s.reg x))
  | .ldI nnn, s => s.setI nnn
  | .rnd x nn, s => (s.setReg x (Config.rndByte s.draws &&& nn)).countDraw
  | .drw x y n, s =>
    ((s.setFb (drawResult x y n s).1).setReg vf (flagByte (drawResult x y n s).2)).emit [.drawNotify]
  | .ldVxDt x, s => s.setReg x s.dt
  | .ldVxK x, s => s.setMode (.awaitingKey x)
  | .ldDtVx x, s => s.setDt (s.reg x)
  | .ldStVx x, s => s.setSt (s.reg x)
  | .addI x, s => s.setI (s.i + (s.reg x).setWidth 12)
  | .ldF x, s => s.setI (BitVec.ofNat 12 (5 * (s.reg x).toNat))
  | .ldB x, s => s.writeBytes s.i.toNat (decimalDigits (s.reg x))
  | .storeRegs x, s => s.writeBytes s.i.toNat (regsUpTo s x)
  | .loadRegs x, s => s.setV (loadedRegs s x)
  | _, s => s

/-- The answer of an instruction whose own check has passed. -/
def complete (i : Instr) (s : State) : Result :=
  if s.pc.toNat + room i s ≤ 0xFFF then .next ((effect i s).setPc (nextPc i s)) else .fault .pcOutOfRange

/-! ### The shared operations in this shape -/

theorem advance_eq_ite (k : Nat) (s : State) : advance k s =
    if s.pc.toNat + k ≤ 0xFFF then .next (s.setPc (BitVec.ofNat 12 (s.pc.toNat + k))) else .fault .pcOutOfRange := by
  rw [← addr_add_eq_ofNat]; rfl

theorem skipIf_eq_advance (c : Bool) (s : State) : skipIf c s = advance (if c then 4 else 2) s := by
  cases c <;> rfl

/-- `RET` and the jumps ask for no address past PC, so the range test always passes. -/
theorem complete_of_room_zero {i : Instr} {s : State} (h : room i s = 0) :
    complete i s = .next ((effect i s).setPc (nextPc i s)) :=
  if_pos (by rw [h]; omega)

theorem guard_answer {c : Prop} [Decidable c] {f : Fault} {r r' : Result} (h : c → r = r') :
    (if c then r else raise f) = (if c then none else some f).elim r' .fault := by
  split
  case isTrue hc => exact h hc
  case isFalse => rfl

theorem refusal_answer {c : Prop} [Decidable c] {f : Fault} {r r' : Result} {o : Option Fault} (h : r = o.elim r' .fault) :
    (if c then raise f else r) = (if c then some f else o).elim r' .fault := by
  split
  case isTrue => rfl
  case isFalse => exact h

theorem execRet_eq (s : State) : execRet s = (ownCheck .ret s).elim (complete .ret s) .fault := by
  rw [complete_of_room_zero rfl]
  simp only [ownCheck]
  split
  case isTrue hsp => exact exec_ret_of_pop_none (State.pop_eq_none.2 hsp)
  case isFalse hsp => exact exec_ret_of_pop_some (State.pop_eq_some.2 ⟨hsp, rfl, rfl⟩)

theorem execJp_eq (nnn : Addr) (s : State) : execJp nnn s = (ownCheck (.jp nnn) s).elim (complete (.jp nnn) s) .fault := by
  rw [complete_of_room_zero rfl]
  simp only [ownCheck]
  split
  case isTrue hin => exact jumpTo_addr s hin
  case isFalse hout => exact jumpTo_of_outside s (by omega)

theorem execJpV0_eq (nnn : Addr) (s : State) :
    execJpV0 nnn s = (ownCheck (.jpV0 nnn) s).elim (complete (.jpV0 nnn) s) .fault := by
  rw [complete_of_room_zero rfl]
  simp only [ownCheck]
  split
  case isTrue hin => exact jumpTo_of_inside s hin.1 hin.2
  case isFalse hout => exact jumpTo_of_outside s (by omega)

theorem execCall_eq (nnn : Addr) (s : State) :
    execCall nnn s = (ownCheck (.call nnn) s).elim (complete (.call nnn) s) .fault := by
  simp only [execCall, ownCheck]
  split
  case h_1 hout =>
    have := nnn.isLt
    rw [if_neg (by have := jumpTarget_eq_none.1 hout; omega)]; rfl
  case h_2 t hin =>
    obtain ⟨hlow, -, rfl⟩ := jumpTarget_eq_some.1 hin
    rw [if_pos hlow]
    split
    case h_1 hfull => rw [if_pos (State.push_eq_none.1 hfull)]; rfl
    case h_2 u hpush =>
      have hroom : s.sp.val ≠ 16 := fun hfull => by simp [State.push_eq_none.2 hfull] at hpush
      rw [if_neg hroom]
      simp [complete, effect, nextPc, hpush, room, raise]

/-- What `SKP` and `SKNP` share: the skip on the level of the key numbered V[x], as it is or negated (45_keypad_timers.md R150, R151). -/
def keySkip (c : Bool → Bool) (x : Reg) (s : State) : Result :=
  match keyIndex (s.reg x) with
  | none => raise .invalidRegisterValue
  | some k => skipIf (c s.keys[k]) s

theorem exec_skp (x : Reg) (s : State) : exec (.skp x) s = keySkip id x s := rfl

theorem exec_sknp (x : Reg) (s : State) : exec (.sknp x) s = keySkip not x s := rfl

theorem keyDown_of_keyIndex {s : State} {x k : Reg} (h : keyIndex (s.reg x) = some k) : keyDown s x = s.keys[k] := by
  simp only [keyDown, h, Option.any_some]

theorem keySkip_eq (c : Bool → Bool) (x : Reg) (s : State) : keySkip c x s =
    (if (s.reg x).toNat ≤ 0xF then none else some Fault.invalidRegisterValue).elim
      (advance (if c (keyDown s x) then 4 else 2) s) .fault := by
  unfold keySkip
  split
  case h_1 hbad => rw [if_neg (by have := keyIndex_eq_none.1 hbad; omega)]; rfl
  case h_2 k hkey =>
    rw [if_pos (by have := keyIndex_eq_some.1 hkey; omega), keyDown_of_keyIndex hkey, skipIf_eq_advance]; rfl

theorem exec_ldF_eq (x : Reg) (s : State) : exec (.ldF x) s = (ownCheck (.ldF x) s).elim (complete (.ldF x) s) .fault := by
  simp only [ownCheck]
  split
  case isTrue hdigit => rw [exec_ldF_of_le hdigit]; exact advance_eq_ite 2 _
  case isFalse hbad => rw [exec_ldF_of_gt (by omega)]; rfl

/-- Everything an instruction can answer. -/
theorem exec_eq (i : Instr) (s : State) : exec i s = (ownCheck i s).elim (complete i s) .fault := by
  cases i with
  | sys | ldVxK => rfl
  | ret => exact execRet_eq s
  | jp nnn => exact execJp_eq nnn s
  | jpV0 nnn => exact execJpV0_eq nnn s
  | call nnn => exact execCall_eq nnn s
  | skp x => rw [exec_skp, keySkip_eq, advance_eq_ite]; rfl
  | sknp x => rw [exec_sknp, keySkip_eq, advance_eq_ite]; rfl
  | ldF x => exact exec_ldF_eq x s
  | seByte | sneByte | seReg | sneReg => exact (skipIf_eq_advance _ s).trans (advance_eq_ite _ s)
  | cls | ldByte | addByte | ldReg | orReg | andReg | xorReg | addReg | sub | subn | ldI | rnd | ldVxDt | ldDtVx | ldStVx =>
    exact advance_eq_ite 2 _
  | shr | shl => exact refusal_answer (advance_eq_ite 2 _)
  | drw => exact refusal_answer (refusal_answer (advance_eq_ite 2 _))
  | addI | ldB | storeRegs | loadRegs => exact guard_answer fun _ => advance_eq_ite 2 _

theorem exec_eq_next {i : Instr} {s t : State} : exec i s = .next t ↔
    ownCheck i s = none ∧ s.pc.toNat + room i s ≤ 0xFFF ∧ t = (effect i s).setPc (nextPc i s) := by
  rw [exec_eq, complete]
  cases ownCheck i s with
  | some f => simp
  | none =>
    by_cases h : s.pc.toNat + room i s ≤ 0xFFF
    · simp [h, eq_comm]
    · simp [h]

theorem exec_eq_fault {i : Instr} {s : State} {f : Fault} : exec i s = .fault f ↔
    ownCheck i s = some f ∨ ownCheck i s = none ∧ 0xFFF < s.pc.toNat + room i s ∧ f = .pcOutOfRange := by
  rw [exec_eq, complete]
  cases ownCheck i s with
  | some f' => simp
  | none =>
    by_cases h : s.pc.toNat + room i s ≤ 0xFFF
    · simp [h]
    · simp [Nat.lt_of_not_le h, h, eq_comm]

theorem exec_ne_refused (i : Instr) (s : State) (r : Refusal) : exec i s ≠ .refused r := by
  rw [exec_eq, complete]
  cases ownCheck i s with
  | some f => simp
  | none => simp only [Option.elim_none]; split <;> simp

end Sys2Proof.Machine
end

section
/-! PROOFS. What instructions leave alone and what they may answer, read off their common shape: the registers (spec/10_state.md R21), the other pieces of
state (R25 to R41), the error kinds (60_exceptions.md R160), the end of memory (40_execution_cycle.md R95), and what no instruction looks at (R96). -/

namespace Sys2Proof.Machine

/-! ### What an effect leaves alone -/

theorem effect_call_of_lt {s : State} (nnn : Addr) (h : s.sp.val < 16) : effect (.call nnn) s =
    { s with stack := s.stack.set s.sp.val (s.pc + 2#12), sp := ⟨s.sp.val + 1, by omega⟩ } := by
  rw [effect, State.push_eq_some.2 ⟨h, rfl⟩, Option.getD_some]

theorem effect_call_of_full {s : State} (nnn : Addr) (h : s.sp.val = 16) : effect (.call nnn) s = s := by
  rw [effect, State.push_eq_none.2 h, Option.getD_none]

theorem sp_lt_or_full (s : State) : s.sp.val < 16 ∨ s.sp.val = 16 := by omega

/-- `CALL` pushes or, on a full stack, changes nothing: only the stack and SP can differ. -/
theorem effect_call_eq (nnn : Addr) (s : State) :
    effect (.call nnn) s = { s with stack := (effect (.call nnn) s).stack, sp := (effect (.call nnn) s).sp } := by
  obtain h | h := sp_lt_or_full s
  · rw [effect_call_of_lt nnn h]
  · rw [effect_call_of_full nnn h]

theorem effect_config_img (i : Instr) (s : State) : (effect i s).config = s.config ∧ (effect i s).img = s.img := by
  cases i with
  | call nnn => rw [effect_call_eq]; exact ⟨rfl, rfl⟩
  | _ => exact ⟨rfl, rfl⟩

theorem effect_mode {i : Instr} {s : State} (h : (effect i s).mode ≠ s.mode) : ∃ x, i = .ldVxK x := by
  cases i with
  | ldVxK x => exact ⟨x, rfl⟩
  | call nnn => rw [effect_call_eq] at h; exact absurd rfl h
  | _ => exact absurd rfl h

theorem effect_reg {i : Instr} {k : Reg} (s : State) (h : ¬writesReg i k) : (effect i s).reg k = s.reg k := by
  cases i with
  | call nnn => rw [effect_call_eq]; rfl
  | ldByte x | addByte x | ldReg x | orReg x | andReg x | xorReg x | rnd x | ldVxDt x =>
    exact State.reg_setReg_other _ _ fun hx => h hx.symm
  | addReg x | sub x | subn x =>
    obtain ⟨hx, hvf⟩ := not_or.1 h
    simp only [effect, State.reg_setRegThenFlag, if_neg (Ne.symm hx), if_neg (Ne.symm hvf)]
  | shr x | shl x =>
    obtain ⟨hx, hvf⟩ := not_or.1 h
    simp only [effect, State.reg_setFlagThenReg, if_neg (Ne.symm hx), if_neg (Ne.symm hvf)]
  | drw => exact State.reg_setReg_other _ _ fun hvf => h hvf.symm
  | loadRegs x => exact (getElem_loadedRegs s x k).trans (if_neg h)
  | _ => rfl

/-! ### Which errors -/

theorem mayRaise_of_ownCheck {i : Instr} {s : State} {f : Fault} (h : ownCheck i s = some f) : mayRaise i f := by
  cases i with
  | sys => cases h; rfl
  | ret | jp | jpV0 =>
    simp only [ownCheck] at h
    split at h <;> cases h
    rfl
  | shr | shl | skp | sknp | ldF | addI | ldB | storeRegs | loadRegs =>
    simp only [ownCheck] at h
    split at h <;> cases h
    exact .inl rfl
  | call =>
    simp only [ownCheck] at h
    split at h
    · split at h <;> cases h
      exact .inr (.inl rfl)
    · cases h
      exact .inl rfl
  | drw =>
    simp only [ownCheck] at h
    split at h
    · cases h
      exact .inl rfl
    · split at h <;> cases h
      exact .inr (.inl rfl)
  | _ => cases h

theorem mayRaise_pcOutOfRange {i : Instr} {s : State} (hown : ownCheck i s = none) (h : 0xFFF < s.pc.toNat + room i s) :
    mayRaise i .pcOutOfRange := by
  have hpc := s.pc.isLt
  cases i with
  | sys => cases hown
  | ret | jp | jpV0 => simp only [room] at h; omega
  | call | drw => exact .inr (.inr rfl)
  | shr | shl | skp | sknp | ldF | addI | ldB | storeRegs | loadRegs => exact .inr rfl
  | _ => rfl

/-! ### The end of memory -/

theorem two_le_room (i : Instr) (s : State) : 2 ≤ room i s ∨ i = .ret ∨ ∃ nnn, i = .jp nnn ∨ i = .jpV0 nnn := by
  cases i with
  | ret => exact .inr (.inl rfl)
  | jp nnn => exact .inr (.inr ⟨nnn, .inl rfl⟩)
  | jpV0 nnn => exact .inr (.inr ⟨nnn, .inr rfl⟩)
  | seByte | sneByte | seReg | sneReg | skp | sknp => left; simp only [room]; split <;> decide
  | _ => exact .inl le_rfl

theorem exec_at_end {i : Instr} {s : State} (h : 0xFFF < s.pc.toNat + 2) (hown : ownCheck i s = none)
    (hi : ¬(i = .ret ∨ ∃ nnn, i = .jp nnn ∨ i = .jpV0 nnn)) : exec i s = .fault .pcOutOfRange := by
  have hroom : 2 ≤ room i s := (two_le_room i s).resolve_right hi
  exact exec_eq_fault.2 (.inr ⟨hown, by omega, rfl⟩)

theorem ownCheck_shift {y : Reg} {s : State} (x : Reg) (h : s.config.shiftY15Fault = false ∨ y.val ≠ 15) :
    ownCheck (.shr x y) s = none ∧ ownCheck (.shl x y) s = none := by
  have hpass : shiftRefused y s = false := by simpa [shiftRefused, Fin.ext_iff, or_iff_not_imp_left] using h
  simp [ownCheck, hpass]

theorem ownCheck_drw {x y : Reg} {n : Fin 16} {s : State} (h : 0 < n.val → s.i.toNat + n.val - 1 ≤ 0xFFF ∧
    (s.config.drawEdge = .error → (s.reg x).toNat + 7 ≤ 63 ∧ (s.reg y).toNat + n.val - 1 ≤ 31)) :
    ownCheck (.drw x y n) s = none := by
  have hread : spriteReadOk s n = true := spriteReadOk_iff.2 (by omega)
  have hbox (he : s.config.drawEdge = .error) : spriteBoxOk s x y n = true := by
    rw [spriteBoxOk_iff]
    intro hn
    obtain ⟨hx, hy⟩ := (h hn).2 he
    omega
  simpa [ownCheck, hread] using hbox

/-! ### Sound events -/

/-- Between `s` and `t` the events `es` were emitted, and the sound events among them are the edges of ST (10_state.md R42). -/
def EmitsEdges (s t : State) (es : List Event) : Prop :=
  t.events = s.events ++ es ∧
    (.soundOn ∈ es ↔ s.st = 0#8 ∧ t.st ≠ 0#8) ∧ (.soundOff ∈ es ↔ s.st ≠ 0#8 ∧ t.st = 0#8)

/-- Events without a sound event are right where ST stays. -/
theorem EmitsEdges.of_st_eq {s t : State} {es : List Event} (hev : t.events = s.events ++ es) (hst : t.st = s.st)
    (hes : .soundOn ∉ es ∧ .soundOff ∉ es) : EmitsEdges s t es := by
  refine ⟨hev, ?_, ?_⟩
  · simp [hes, hst]
  · simp [hes, hst]

theorem EmitsEdges.of_soundEdges {s t : State} (hev : t.events = s.events ++ soundEdges s.st t.st) :
    EmitsEdges s t (soundEdges s.st t.st) :=
  ⟨hev, soundOn_mem_soundEdges, soundOff_mem_soundEdges⟩

theorem EmitsEdges.silent {s t : State} (hev : t.events = s.events) (hst : t.st = s.st) : EmitsEdges s t [] :=
  .of_st_eq (by simp [hev]) hst (by simp)

theorem effect_emitsEdges (i : Instr) (s : State) : ∃ es, EmitsEdges s (effect i s) es := by
  cases i with
  | cls | drw => exact ⟨[.drawNotify], .of_st_eq rfl rfl (by decide)⟩
  | ldStVx => exact ⟨_, .of_soundEdges rfl⟩
  | call nnn => rw [effect_call_eq]; exact ⟨[], .silent rfl rfl⟩
  | _ => exact ⟨[], .silent rfl rfl⟩

theorem keyPoll_silent (r : Reg) (s : State) : EmitsEdges s (keyPoll r s) [] := by
  unfold keyPoll
  split
  · exact .silent rfl rfl
  · exact .silent rfl rfl

theorem drawNotify_not_mem_soundEdges (old new : Byte) : Event.drawNotify ∉ soundEdges old new := by
  unfold soundEdges
  split_ifs <;> decide

/-! ### What no instruction looks at -/

/-- A change `φ` of the state that an instruction neither reads nor undoes goes through it: the instruction does the same on `φ s`. -/
theorem exec_commutes {φ : State → State} {i : Instr} {s : State} (hown : ownCheck i (φ s) = ownCheck i s)
    (hroom : room i (φ s) = room i s) (hpc : (φ s).pc = s.pc)
    (hnext : (effect i (φ s)).setPc (nextPc i (φ s)) = φ ((effect i s).setPc (nextPc i s))) :
    (∀ t, exec i s = .next t → exec i (φ s) = .next (φ t)) ∧ (∀ f, exec i s = .fault f → exec i (φ s) = .fault f) := by
  simp only [exec_eq_next, exec_eq_fault, hown, hroom, hpc, hnext]
  refine ⟨?_, fun f h => h⟩
  rintro t ⟨hpass, hreach, rfl⟩
  exact ⟨hpass, hreach, rfl⟩

theorem effect_call_setKeys (nnn : Addr) (s : State) (k : Keys) :
    effect (.call nnn) (s.setKeys k) = (effect (.call nnn) s).setKeys k := by
  obtain h | h := sp_lt_or_full s
  · rw [effect_call_of_lt nnn h, effect_call_of_lt (s := s.setKeys k) nnn h]; rfl
  · rw [effect_call_of_full nnn h, effect_call_of_full (s := s.setKeys k) nnn h]

theorem effect_call_setDt (nnn : Addr) (s : State) (d : Byte) :
    effect (.call nnn) (s.setDt d) = (effect (.call nnn) s).setDt d := by
  obtain h | h := sp_lt_or_full s
  · rw [effect_call_of_lt nnn h, effect_call_of_lt (s := s.setDt d) nnn h]; rfl
  · rw [effect_call_of_full nnn h, effect_call_of_full (s := s.setDt d) nnn h]

/-! ### The statements -/

/-- Settles O24: at such a PC the room is missing for every instruction but `RET` and the jumps, and once an instruction's own check passes nothing
else is left to fail. -/
theorem onlyDirectUpdatesCompleteAtTheEnd : Obligations.OnlyDirectUpdatesCompleteAtTheEnd := by
  intro s hpc
  refine ⟨fun i t h => ?completes, fun x y nn nnn i hi => ?noCheck, fun x y h => ?shifts, fun x h => ?addI, fun x h => ?digit,
    fun x hlow hhigh => ?ldB, fun x hlow hhigh => ?storeRegs, fun x h => ?loadRegs, fun x y n h => ?drw, fun nnn hlow hsp => ?call⟩
  case completes =>
    obtain ⟨-, hreach, -⟩ := exec_eq_next.1 h
    exact (two_le_room i s).resolve_left (by omega)
  case noCheck => fin_cases hi <;> exact exec_at_end hpc rfl (by simp)
  case shifts =>
    obtain ⟨hshr, hshl⟩ := ownCheck_shift x h
    exact ⟨exec_at_end hpc hshr (by simp), exec_at_end hpc hshl (by simp)⟩
  case addI => exact exec_at_end hpc (if_pos h) (by simp)
  case digit =>
    exact ⟨exec_at_end hpc (if_pos h) (by simp), exec_at_end hpc (if_pos h) (by simp), exec_at_end hpc (if_pos h) (by simp)⟩
  case ldB => exact exec_at_end hpc (if_pos (storeRangeOk_iff.2 ⟨hlow, hhigh⟩)) (by simp)
  case storeRegs => exact exec_at_end hpc (if_pos (storeRangeOk_iff.2 ⟨hlow, hhigh⟩)) (by simp)
  case loadRegs => exact exec_at_end hpc (if_pos (loadRangeOk_iff.2 h)) (by simp)
  case drw => exact exec_at_end hpc (ownCheck_drw h) (by simp)
  case call => exact exec_at_end hpc ((if_pos hlow).trans (if_neg hsp.ne)) (by simp)

/-- Settles O53: the effect writes only the listed registers, and the step of PC writes none. -/
theorem onlyListedRegistersChange : Obligations.OnlyListedRegistersChange := by
  intro i s t k h hk
  obtain ⟨-, -, rfl⟩ := exec_eq_next.1 h
  exact effect_reg s hk

/-- Settles O54: apart from PC an instruction leaves its effect, which names the fields it replaces; `CALL`'s are the stack and SP. -/
theorem onlyNamedInstructionsChangeState : Obligations.OnlyNamedInstructionsChangeState := by
  intro i s t h
  obtain ⟨-, -, rfl⟩ := exec_eq_next.1 h
  cases i with
  | call nnn => rw [effect_call_eq]; simp
  | _ => simp [effect]

/-- Settles O55: a fault comes from the instruction's own check or from the room it needs. -/
theorem instructionsRaiseOnlyListedErrors : Obligations.InstructionsRaiseOnlyListedErrors := by
  refine fun i s => ⟨fun f h => ?_, exec_ne_refused i s⟩
  obtain hown | ⟨hown, hroom, rfl⟩ := exec_eq_fault.1 h
  · exact mayRaise_of_ownCheck hown
  · exact mayRaise_pcOutOfRange hown hroom

/-- Settles O56: each operation either leaves ST and emits no sound event, or sets ST through `soundEdges`. -/
theorem soundEdgesFollowTheSoundTimer : Obligations.SoundEdgesFollowTheSoundTimer := by
  suffices h : ∀ op s t, operate op s = .next t → ∃ es, EmitsEdges s t es ∧ (.drawNotify ∈ es → op = .step) by
    intro op s t ht
    obtain ⟨es, ⟨hev, hon, hoff⟩, hdraw⟩ := h op s t ht
    exact ⟨es, hev, hon, hoff, hdraw⟩
  intro op s t h
  obtain ⟨rfl, r, -, rfl⟩ | ⟨rfl, -, i, -, hexec⟩ | ⟨rfl, rfl⟩ | ⟨k, rfl, rfl⟩ | ⟨bs, rfl, hload⟩ | ⟨rfl, rfl⟩ := operate_cases h
  · exact ⟨[], keyPoll_silent r s, fun _ => rfl⟩
  · obtain ⟨-, -, rfl⟩ := exec_eq_next.1 hexec
    obtain ⟨es, hes⟩ := effect_emitsEdges i s
    exact ⟨es, hes, fun _ => rfl⟩
  · exact ⟨_, .of_soundEdges rfl, fun hmem => absurd hmem (drawNotify_not_mem_soundEdges _ _)⟩
  · exact ⟨[], .silent rfl rfl, nofun⟩
  · obtain ⟨-, rfl⟩ := hostLoadProgram_eq_next.1 hload
    exact ⟨[], .silent rfl rfl, nofun⟩
  · exact ⟨_, .of_soundEdges rfl, fun hmem => absurd hmem (drawNotify_not_mem_soundEdges _ _)⟩

/-- Settles O57: only the room of the two key skips reads the keys. -/
theorem onlyKeySkipsDependOnTheKeys : Obligations.OnlyKeySkipsDependOnTheKeys := by
  intro i s k hi
  refine exec_commutes (φ := fun s => s.setKeys k) ?own ?room rfl ?next
  case own => cases i <;> rfl
  case room =>
    cases i with
    | skp x => exact absurd rfl (hi x).1
    | sknp x => exact absurd rfl (hi x).2
    | _ => rfl
  case next =>
    cases i with
    | skp x => exact absurd rfl (hi x).1
    | sknp x => exact absurd rfl (hi x).2
    | call nnn => rw [effect_call_setKeys]; rfl
    | _ => rfl

/-- Settles O58: only `LD Vx,DT` reads DT and only `LD DT,Vx` replaces it. -/
theorem onlyTimerInstructionsDependOnDt : Obligations.OnlyTimerInstructionsDependOnDt := by
  intro i s d hi
  refine exec_commutes (φ := fun s => s.setDt d) ?own ?room rfl ?next
  case own => cases i <;> rfl
  case room => cases i <;> rfl
  case next =>
    cases i with
    | ldVxDt x => exact absurd rfl (hi x).1
    | ldDtVx x => exact absurd rfl (hi x).2
    | call nnn => rw [effect_call_setDt]; rfl
    | _ => rfl

end Sys2Proof.Machine
end

section
/-! PROOFS. The invariant of spec/10_state.md R43: it holds at power-on, and every host operation keeps it, `Step` by the common shape of the
instructions. -/

namespace Sys2Proof.Machine

/-! ### Instructions -/

theorem toNat_ofNat_addr {a : Nat} (h : a ≤ 0xFFF) : (BitVec.ofNat 12 a).toNat = a := by
  rw [BitVec.toNat_ofNat]; omega

theorem nextPc_low {i : Instr} {s : State} (hinv : StateInv s) (hown : ownCheck i s = none)
    (hroom : s.pc.toNat + room i s ≤ 0xFFF) : 0x200 ≤ (nextPc i s).toNat := by
  have hpc := hinv.pcLow
  cases i with
  | ret =>
    have hsp : s.sp.val ≠ 0 := by simpa [ownCheck] using hown
    have := hinv.liveEntries ⟨s.sp.val - 1, by omega⟩ (by simp only; omega)
    exact Nat.le_trans (by decide) this
  | jp nnn => exact (by simpa [ownCheck] using hown : 0x200 ≤ nnn.toNat)
  | call nnn =>
    by_contra hlow
    simp [ownCheck, show ¬0x200 ≤ nnn.toNat from hlow] at hown
  | jpV0 nnn =>
    obtain ⟨hlow, hhigh⟩ : 0x200 ≤ (s.reg 0).toNat + nnn.toNat ∧ (s.reg 0).toNat + nnn.toNat ≤ 0xFFF := by
      simpa [ownCheck] using hown
    exact (toNat_ofNat_addr hhigh).symm ▸ hlow
  | ldVxK => exact hpc
  | _ => exact (toNat_ofNat_addr hroom).symm ▸ Nat.le_add_right_of_le hpc

theorem effect_liveEntries {i : Instr} {s : State} (hinv : StateInv s) (hroom : s.pc.toNat + room i s ≤ 0xFFF) (k : Fin 16)
    (hk : k.val < (effect i s).sp.val) : 0x202 ≤ ((effect i s).stack[k]).toNat := by
  have hpc := hinv.pcLow
  cases i with
  | ret => exact hinv.liveEntries k (Nat.lt_of_lt_of_le hk (Nat.sub_le _ _))
  | call nnn =>
    obtain h | h := sp_lt_or_full s
    · rw [effect_call_of_lt nnn h] at hk ⊢
      simp only [Fin.getElem_fin, Vector.getElem_set] at hk ⊢
      split
      · rw [toNat_advanced (k := 2) hroom]; exact Nat.add_le_add_right hpc 2
      · exact hinv.liveEntries k (by omega)
    · rw [effect_call_of_full nnn h] at hk ⊢
      exact hinv.liveEntries k hk
  | _ => exact hinv.liveEntries k hk

theorem storeFromI_memWf {last : Nat} {bs : List Byte} {s t : State} (hs : s.memWf = true) (h : storeFromI last bs s = .next t)
    (hlen : bs.length = last + 1) : t.memWf = true := by
  obtain ⟨⟨-, hhigh⟩, -, rfl⟩ := storeFromI_eq_next.1 h
  rw [State.setPc_memWf]
  exact State.memWf_writeBytes hs (by simp only [memSize]; omega)

theorem exec_memWf {i : Instr} {s t : State} (hs : s.memWf = true) (h : exec i s = .next t) : t.memWf = true := by
  by_cases hi : ∃ x, i = .ldB x ∨ i = .storeRegs x
  · obtain ⟨x, rfl | rfl⟩ := hi
    · exact storeFromI_memWf hs (exec_ldB x s ▸ h) (length_decimalDigits _)
    · exact storeFromI_memWf hs (exec_storeRegs x s ▸ h) (length_regsUpTo s x)
  · obtain ⟨hmem, hconfig⟩ := exec_sameMemory (by simpa using hi) h
    rw [State.memWf, hmem, hconfig]; exact hs

/-- The only way into AwaitingKey is `LD Vx,K`, which leaves PC where PC + 2 exists (10_state.md R43 (e)). -/
theorem exec_waiting {i : Instr} {s t : State} {r : Reg} (hrun : s.mode = .running) (h : exec i s = .next t)
    (ht : t.mode = .awaitingKey r) : t.pc.toNat + 2 ≤ 0xFFF := by
  obtain ⟨-, hroom, rfl⟩ := exec_eq_next.1 h
  have hmode : (effect i s).mode ≠ s.mode := by rw [hrun]; exact fun hsame => nomatch ht.symm.trans hsame
  obtain ⟨x, rfl⟩ := effect_mode hmode
  exact hroom

theorem StateInv.of_exec {i : Instr} {s t : State} (hinv : StateInv s) (hrun : s.mode = .running) (h : exec i s = .next t) :
    StateInv t where
  pcLow := by
    obtain ⟨hown, hroom, rfl⟩ := exec_eq_next.1 h
    exact nextPc_low hinv hown hroom
  liveEntries := by
    obtain ⟨-, hroom, rfl⟩ := exec_eq_next.1 h
    exact effect_liveEntries hinv hroom
  lowMemory := by
    intro a ha
    rw [exec_readByte_below h ha, hinv.lowMemory a ha]
    obtain ⟨-, -, rfl⟩ := exec_eq_next.1 h
    rw [State.setPc_config, (effect_config_img i s).1]
  waiting _ := exec_waiting hrun h
  image := by
    obtain ⟨-, -, rfl⟩ := exec_eq_next.1 h
    rw [State.setPc_img, (effect_config_img i s).2]; exact hinv.image
  memory := exec_memWf hinv.memory h

/-! ### The other host operations -/

theorem StateInv.setSchedule {s : State} (h : StateInv s) (ops : List HostOp) : StateInv (s.setSchedule ops) :=
  ⟨h.pcLow, h.liveEntries, h.lowMemory, h.waiting, h.image, h.memory⟩

theorem StateInv.hostTick {s : State} (h : StateInv s) : StateInv (hostTick s) :=
  ⟨h.pcLow, h.liveEntries, h.lowMemory, h.waiting, h.image, h.memory⟩

theorem StateInv.hostSetKeys {s : State} (h : StateInv s) (k : Keys) : StateInv (hostSetKeys k s) :=
  ⟨h.pcLow, h.liveEntries, h.lowMemory, h.waiting, h.image, h.memory⟩

theorem StateInv.keyPoll {s : State} {r : Reg} (h : StateInv s) (hm : s.mode = .awaitingKey r) : StateInv (keyPoll r s) := by
  unfold Machine.keyPoll
  split
  · refine ⟨?_, h.liveEntries, h.lowMemory, nofun, h.image, h.memory⟩
    exact (toNat_advanced (h.waiting r hm)).symm ▸ Nat.le_add_right_of_le h.pcLow
  · exact h

theorem StateInv.hostLoadProgram {s t : State} {bs : List Byte} (h : StateInv s) (ht : hostLoadProgram bs s = .next t) :
    StateInv t := by
  obtain ⟨hlen, rfl⟩ := hostLoadProgram_eq_next.1 ht
  refine ⟨h.pcLow, h.liveEntries, fun a ha => ?_, h.waiting, hlen, Memory.wf_loaded h.memory hlen⟩
  refine (Memory.read_loaded _ _ _ _).trans ?_
  rw [if_pos (show a < progBase from ha)]
  split
  · rfl
  · exact h.lowMemory a ha

theorem StateInv.hostReset {s : State} (h : StateInv s) : StateInv (hostReset s) where
  pcLow := show 0x200 ≤ (0x200#12).toNat by decide
  liveEntries := nofun
  lowMemory a ha := (Memory.read_ofBytes _ _ _ _).trans (if_neg (by simp only [progBase]; omega))
  waiting := nofun
  image := h.image
  memory := Memory.wf_imaged _ _

theorem StateInv.of_operate {op : HostOp} {s t : State} (hinv : StateInv s) (h : operate op s = .next t) : StateInv t := by
  obtain ⟨-, r, hm, rfl⟩ | ⟨-, hm, i, -, hexec⟩ | ⟨-, rfl⟩ | ⟨k, -, rfl⟩ | ⟨bs, -, hload⟩ | ⟨-, rfl⟩ := operate_cases h
  · exact hinv.keyPoll hm
  · exact hinv.of_exec hm hexec
  · exact hinv.hostTick
  · exact hinv.hostSetKeys k
  · exact hinv.hostLoadProgram hload
  · exact hinv.hostReset

/-! ### The statements -/

/-- Settles O51: a step is one operation on the state with its schedule shortened, and neither of the two leaves the invariant. -/
theorem everyStepKeepsInv : Obligations.EveryStepKeepsInv := by
  intro s t hinv h
  obtain ⟨op, rest, hstep⟩ := step_eq_operate s
  exact (hinv.setSchedule rest).of_operate (hstep.symm.trans h)

/-- Settles O50: at power-on memory is blank, the stack and IMG are empty, and the mode is Running. -/
theorem invHoldsAtPowerOn : Obligations.InvHoldsAtPowerOn where
  pcLow := by decide
  liveEntries := nofun
  lowMemory _ _ := Memory.read_nil _ _
  waiting := nofun
  image := by decide
  memory := State.reset_memWf

end Sys2Proof.Machine
end

section
/-! PROOFS. The execution cycle (spec/40_execution_cycle.md R90, R92; 45_keypad_timers.md R154), the control transfers on a condition or with a saved address
(41_control_flow.md R103 to R107, R109; 45_keypad_timers.md R150, R151), and rest (70_reset_and_hazards.md R208). -/

namespace Sys2Proof.Machine

/-! ### The cycle -/

theorem fetchInstr_of_decodeBytes {s : State} {i : Instr} (hpc : s.pc.toNat + 1 ≤ 0xFFF)
    (h : decodeBytes [s.readByte s.pc.toNat, s.readByte (s.pc.toNat + 1)] = .ok (i, [])) : fetchInstr s = .ok i := by
  rw [fetchInstr_eq_ok]
  simp only [decodeBytes] at h
  split at h <;> cases h
  exact ⟨hpc, ‹_›⟩

theorem fetchInstr_past_end {s : State} (h : 0xFFF < s.pc.toNat + 1) : fetchInstr s = .error .pcOutOfRange := by
  have hnone : fetchWord s = none := if_neg (by omega)
  simp only [fetchInstr, hnone]

theorem keyPoll_of_pressed {s : State} {t k : Reg} (hk : s.keys[k] = true) (hlow : ∀ j : Reg, j < k → s.keys[j] = false) :
    keyPoll t s =
      { s with v := s.v.set t (BitVec.ofNat 8 k.val), pc := BitVec.ofNat 12 (s.pc.toNat + 2), mode := .running } := by
  simp only [keyPoll, firstPressed_eq_some.2 ⟨hk, hlow⟩, addr_add_eq_ofNat]; rfl

theorem keyPoll_of_none {s : State} (t : Reg) (h : ∀ k : Reg, s.keys[k] = false) : keyPoll t s = s := by
  simp only [keyPoll, firstPressed_eq_none.2 h]

/-! ### Skips -/

/-- An instruction that only moves PC forward by `k`, when it has no check left to fail. -/
theorem exec_moves_pc {i : Instr} {s : State} {k : Nat} (hown : ownCheck i s = none) (hroom : room i s = k)
    (heff : effect i s = s) (hnext : nextPc i s = BitVec.ofNat 12 (s.pc.toNat + room i s)) :
    (s.pc.toNat + k ≤ 0xFFF → exec i s = .next { s with pc := BitVec.ofNat 12 (s.pc.toNat + k) }) ∧
    (0xFFF < s.pc.toNat + k → exec i s = .fault .pcOutOfRange) := by
  subst hroom
  refine ⟨fun hin => exec_eq_next.2 ⟨hown, hin, ?_⟩, fun hout => exec_eq_fault.2 (.inr ⟨hown, hout, rfl⟩)⟩
  rw [heff, hnext]; rfl

theorem ite_four_two {c : Prop} {b : Bool} {k : Nat} (hc : c ↔ b = true) (hk : c ∧ k = 4 ∨ ¬c ∧ k = 2) :
    (if b then 4 else 2) = k := by
  obtain ⟨hyes, rfl⟩ | ⟨hno, rfl⟩ := hk
  · exact if_pos (hc.1 hyes)
  · exact if_neg fun hb => hno (hc.2 hb)

/-! ### Calls and returns -/

theorem exec_call_of_passes {nnn : Addr} {s : State} (hlow : 0x200 ≤ nnn.toNat) (hsp : s.sp.val < 16)
    (hpc : s.pc.toNat + 2 ≤ 0xFFF) : exec (.call nnn) s = .next
      { s with stack := s.stack.set s.sp.val (BitVec.ofNat 12 (s.pc.toNat + 2)), sp := ⟨s.sp.val + 1, by omega⟩, pc := nnn } := by
  refine exec_eq_next.2 ⟨(if_pos hlow).trans (if_neg hsp.ne), hpc, ?_⟩
  rw [effect_call_of_lt nnn hsp, addr_add_eq_ofNat]; rfl

theorem exec_call_eq_next {nnn : Addr} {s t : State} (h : exec (.call nnn) s = .next t) :
    ∃ hsp : s.sp.val < 16, s.pc.toNat + 2 ≤ 0xFFF ∧ t =
      { s with stack := s.stack.set s.sp.val (BitVec.ofNat 12 (s.pc.toNat + 2)), sp := ⟨s.sp.val + 1, by omega⟩, pc := nnn } := by
  obtain ⟨hown, hpc, rfl⟩ := exec_eq_next.1 h
  have hsp : s.sp.val < 16 := by
    refine (sp_lt_or_full s).resolve_right fun hfull => ?_
    by_cases hlow : 0x200 ≤ nnn.toNat <;> simp [ownCheck, hlow, hfull] at hown
  refine ⟨hsp, hpc, ?_⟩
  rw [effect_call_of_lt nnn hsp, addr_add_eq_ofNat]; rfl

theorem execAll_cons_eq_next {i : Instr} {is : List Instr} {s t : State} :
    execAll (i :: is) s = .next t ↔ ∃ u, exec i s = .next u ∧ execAll is u = .next t := by
  cases h : exec i s <;> simp [execAll, h]

theorem execAll_append {is js : List Instr} {s t u : State} (hs : execAll is s = .next t) (ht : execAll js t = .next u) :
    execAll (is ++ js) s = .next u := by
  induction is generalizing s with
  | nil => cases hs; exact ht
  | cons i is ih =>
    obtain ⟨v, hv, hvs⟩ := execAll_cons_eq_next.1 hs
    exact execAll_cons_eq_next.2 ⟨v, hv, ih hvs⟩

theorem exec_ret_of_succ {s : State} {k : Fin 16} (h : s.sp.val = k.val + 1) :
    exec .ret s = .next { s with pc := s.stack[k], sp := k.castSucc } :=
  exec_ret_of_pop_some (State.pop_of_sp_succ (Fin.ext h))

/-! ### Rest -/

theorem decodeWord_jp (a : Addr) : decodeWord (BitVec.ofNat 16 (0x1000 + a.toNat)) = .ok (.jp a) :=
  decodeWord_encode (i := .jp a) rfl

theorem operate_step_at_rest {s : State} (h : AtRest s) (hlow : 0x200 ≤ s.pc.toNat) : operate .step s = .next s := by
  obtain ⟨hm, hw⟩ := h
  rw [operate_step_of_fetchInstr_ok hm (fetchInstr_of_decodeWord_ok hw (decodeWord_jp s.pc)), exec_jp, jumpTo_addr s hlow]
  rfl

/-! ### The statements -/

/-- Settles O7: the fetch reads the two bytes, and the schedule is not looked at by it. -/
theorem stepRunsTheDecodedInstruction : Obligations.StepRunsTheDecodedInstruction := by
  intro s i hm hpc hbytes
  have hfetch (ops : List HostOp) : fetchInstr (s.setSchedule ops) = .ok i := fetchInstr_of_decodeBytes hpc hbytes
  have hstep : operate .step s = exec i s := operate_step_of_fetchInstr_ok hm (hfetch s.schedule)
  refine ⟨hstep, fun hnil => (step_of_nil hnil).trans hstep, fun rest hcons => ?_⟩
  exact (step_of_cons hcons).trans (operate_step_of_fetchInstr_ok hm (hfetch rest))

/-- Settles O8: `step` takes the head off the schedule. -/
theorem stepPerformsTheScheduledOperation : Obligations.StepPerformsTheScheduledOperation :=
  fun _ _ _ => step_of_cons

/-- Settles O10: the fetch fails before anything is decoded. -/
theorem fetchPastTheEndRaises : Obligations.FetchPastTheEndRaises :=
  fun _ hm hpc => operate_step_of_fetchInstr_error hm (fetchInstr_past_end hpc)

/-- Settles O12: the poll takes the first pressed key in index order, or leaves the state. -/
theorem awaitingKeyStepPolls : Obligations.AwaitingKeyStepPolls := by
  refine fun s t hm _ => ⟨fun k hk hlow => ?_, fun hnone => ?_⟩
  · rw [operate_step_awaiting hm, keyPoll_of_pressed hk hlow]
  · rw [operate_step_awaiting hm, keyPoll_of_none t hnone]

/-- Settles O15: target and depth are `CALL`'s own check, the return address is the room it needs. -/
theorem callPushesTheReturnAddress : Obligations.CallPushesTheReturnAddress := by
  refine fun nnn s => ⟨fun hbad => ?_, fun hlow hfull => ?_, fun k hlow hk hpc => ?_, fun k hlow hk hpc => ?_⟩
  · exact exec_eq_fault.2 (.inl (if_neg (by omega)))
  · exact exec_eq_fault.2 (.inl ((if_pos hlow).trans (if_pos hfull)))
  · have hsp : s.sp.val ≠ 16 := by rw [hk]; exact k.isLt.ne
    exact exec_eq_fault.2 (.inr ⟨(if_pos hlow).trans (if_neg hsp), hpc, rfl⟩)
  · have hsp : s.sp.val = k.val := congrArg Fin.val hk
    rw [exec_call_of_passes hlow (hsp ▸ k.isLt) hpc]
    simp only [hsp]; rfl

/-- Settles O16, by induction on the calls: the returns of the inner calls end behind the first call's target with its entry in place, and one
more return takes that entry. -/
theorem nestedCallsReturn : Obligations.NestedCallsReturn := by
  intro targets
  induction targets with
  | nil =>
    rintro s t ⟨⟩
    exact ⟨s, rfl, rfl, fun h => absurd rfl h, fun _ _ => rfl⟩
  | cons a targets ih =>
    intro s t h
    obtain ⟨s', hcall, hrest⟩ := execAll_cons_eq_next.1 h
    obtain ⟨hsp, hpc, hs'⟩ := exec_call_eq_next hcall
    obtain ⟨u, hrets, hu, -, hkept⟩ := ih s' t hrest
    have husp : u.sp.val = s.sp.val + 1 := by rw [hu, hs']
    have hentry : u.stack[(⟨s.sp.val, hsp⟩ : Fin 16)] = BitVec.ofNat 12 (s.pc.toNat + 2) := by
      rw [hkept ⟨s.sp.val, hsp⟩ (by simp [hs']), hs']; simp
    refine ⟨{ u with pc := u.stack[(⟨s.sp.val, hsp⟩ : Fin 16)], sp := s.sp }, ?ret, ?frame, fun _ => ?pc, fun k hk => ?kept⟩
    case ret =>
      rw [List.length_cons, List.replicate_succ']
      exact execAll_append hrets (execAll_cons_eq_next.2 ⟨_, exec_ret_of_succ (k := ⟨s.sp.val, hsp⟩) husp, rfl⟩)
    case frame => rw [hu, hs']
    case pc => simpa only [hentry] using toNat_ofNat_addr hpc
    case kept =>
      have hother : s.sp.val ≠ k.val := hk.ne'
      simp [hkept k (by simp only [hs']; omega), hs', hother]

/-- Settles O17: the four skips have no check of their own and differ in the condition under which the room they need is 4. -/
theorem skipsMovePcByFourOrTwo : Obligations.SkipsMovePcByFourOrTwo := by
  rintro x y nn s i c k (⟨rfl, hc⟩ | ⟨rfl, hc⟩ | ⟨rfl, hc⟩ | ⟨rfl, hc⟩) hk
  all_goals exact exec_moves_pc rfl (ite_four_two (by simpa using hc) hk) rfl rfl

/-- Settles O38: a key index has no check left to fail and the level of the key selects the room; any other value fails the check. -/
theorem keySkipsFollowTheKeyLevel : Obligations.KeySkipsFollowTheKeyLevel := by
  refine fun x s => ⟨fun hbad => ?_, fun key i k hkey hi => ?_⟩
  · have hfail : ¬(s.reg x).toNat ≤ 0xF := by omega
    exact ⟨exec_eq_fault.2 (.inl (if_neg hfail)), exec_eq_fault.2 (.inl (if_neg hfail))⟩
  · have hpass : (s.reg x).toNat ≤ 0xF := by omega
    have hlevel : keyDown s x = s.keys[key] := keyDown_of_keyIndex (keyIndex_eq_some.2 hkey)
    obtain ⟨rfl, rfl⟩ | ⟨rfl, rfl⟩ := hi
    · exact exec_moves_pc (if_pos hpass) (by simp [room, hlevel]) rfl rfl
    · exact exec_moves_pc (if_pos hpass) (by cases h : s.keys[key] <;> simp [room, hlevel, h]) rfl rfl

/-- Settles O52: `JP PC` sets PC to itself. -/
theorem restIsAFixedPoint : Obligations.RestIsAFixedPoint := by
  intro s hrest hlow
  have hstep : operate .step s = .next s := operate_step_at_rest hrest hlow
  exact ⟨hstep, fun hnil => (step_of_nil hnil).trans hstep⟩

end Sys2Proof.Machine
end

section
/-! PROOFS. The arithmetic that writes VF (spec/42_register_alu.md R118 to R123), the index sum and the register transfers (43_index_memory.md R131, R134
to R136), what a store leaves for the next fetch (20_memory.md R62), and the keypad and timer instructions of 45_keypad_timers.md R153, R156. -/

namespace Sys2Proof.Machine

/-! ### Results and flags as numbers -/

theorem byte_sub_eq_ofNat_mod (a b : Byte) : a - b = BitVec.ofNat 8 ((256 + a.toNat - b.toNat) % 256) := by
  apply BitVec.eq_of_toNat_eq
  have := b.isLt
  rw [BitVec.toNat_sub, BitVec.toNat_ofNat]; omega

theorem byte_shiftRight_one_eq_ofNat (a : Byte) : a >>> 1 = BitVec.ofNat 8 (a.toNat / 2) := by
  apply BitVec.eq_of_toNat_eq
  have := a.isLt
  rw [BitVec.toNat_ushiftRight, Nat.shiftRight_eq_div_pow, BitVec.toNat_ofNat]; omega

theorem byte_shiftLeft_one_eq_ofNat (a : Byte) : a <<< 1 = BitVec.ofNat 8 (a.toNat * 2 % 256) := by
  apply BitVec.eq_of_toNat_eq
  rw [BitVec.toNat_shiftLeft, Nat.shiftLeft_eq, BitVec.toNat_ofNat]; omega

theorem flagByte_decide (c : Prop) [Decidable c] : flagByte (decide c) = if c then 1#8 else 0#8 := by
  simp only [flagByte, decide_eq_true_eq]

theorem lowBitFlag_eq_ofNat (a : Byte) : lowBitFlag a = BitVec.ofNat 8 (a.toNat % 2) := by
  rw [lowBitFlag, BitVec.getLsbD, Nat.testBit_zero, flagByte_decide]
  obtain h | h := Nat.mod_two_eq_zero_or_one a.toNat <;> rw [h] <;> rfl

theorem highBitFlag_eq_ofNat (a : Byte) : highBitFlag a = BitVec.ofNat 8 (a.toNat / 128) := by
  have := a.isLt
  rw [highBitFlag, BitVec.getLsbD, Nat.testBit_eq_decide_div_mod_eq, flagByte_decide]
  obtain h | h : a.toNat / 128 = 0 ∨ a.toNat / 128 = 1 := by omega
  all_goals rw [show (2 : Nat) ^ 7 = 128 from rfl, h]; rfl

theorem index_add_eq_ofNat (a : Addr) (b : Byte) : a + b.setWidth 12 = BitVec.ofNat 12 (a.toNat + b.toNat) := by
  rw [← addr_add_eq_ofNat, BitVec.ofNat_toNat]

/-! ### Register transfers -/

theorem exec_loadRegs_of_le {x : Reg} {s : State} (hin : s.i.toNat + x.val ≤ 0xFFF) (hpc : s.pc.toNat + 2 ≤ 0xFFF) :
    exec (.loadRegs x) s = .next { s with v := loadedRegs s x, pc := BitVec.ofNat 12 (s.pc.toNat + 2) } :=
  exec_eq_next.2 ⟨if_pos (loadRangeOk_iff.2 hin), hpc, rfl⟩

theorem exec_storeRegs_readByte {x k : Reg} {s t : State} (h : exec (.storeRegs x) s = .next t) (hk : k ≤ x) :
    t.readByte (s.i.toNat + k.val) = s.reg k := by
  have hlen : k.val < (regsUpTo s x).length := by rw [length_regsUpTo]; exact Nat.lt_succ_of_le hk
  rw [storeFromI_readByte_inside (exec_storeRegs x s ▸ h) hlen, getElem_regsUpTo]

theorem exec_storeRegs_readByte_outside {x : Reg} {s t : State} {a : Nat} (h : exec (.storeRegs x) s = .next t)
    (ha : a < s.i.toNat ∨ s.i.toNat + x.val < a) : t.readByte a = s.readByte a :=
  storeFromI_readByte_outside (exec_storeRegs x s ▸ h) (by rw [length_regsUpTo]; omega)

theorem exec_ldB_readByte_outside {x : Reg} {s t : State} {a : Nat} (h : exec (.ldB x) s = .next t)
    (ha : a < s.i.toNat ∨ s.i.toNat + 3 ≤ a) : t.readByte a = s.readByte a :=
  storeFromI_readByte_outside (exec_ldB x s ▸ h) (by rw [length_decimalDigits]; exact ha)

theorem exec_storeRegs_readByte_eq {x : Reg} {s t : State} (h : exec (.storeRegs x) s = .next t) (b : Nat) :
    t.readByte b =
      if s.i.toNat ≤ b ∧ b ≤ s.i.toNat + x.val then s.reg (Fin.ofNat 16 (b - s.i.toNat)) else s.readByte b := by
  split
  case isTrue hin =>
    have hk : (Fin.ofNat 16 (b - s.i.toNat)).val = b - s.i.toNat := Nat.mod_eq_of_lt (by omega)
    rw [← exec_storeRegs_readByte h (by rw [Fin.le_def, hk]; omega), hk, Nat.add_sub_cancel' hin.1]
  case isFalse hout => exact exec_storeRegs_readByte_outside h (by omega)

theorem exec_ldB_readByte_eq {x : Reg} {s t : State} (h : exec (.ldB x) s = .next t) (b : Nat) :
    t.readByte b =
      if b = s.i.toNat then BitVec.ofNat 8 ((s.reg x).toNat / 100)
      else if b = s.i.toNat + 1 then BitVec.ofNat 8 ((s.reg x).toNat / 10 % 10)
      else if b = s.i.toNat + 2 then BitVec.ofNat 8 ((s.reg x).toNat % 10)
      else s.readByte b := by
  obtain ⟨hhundreds, htens, hunits⟩ := exec_ldB_readByte h
  split_ifs with h0 h1 h2
  · rw [h0, ← hhundreds, BitVec.ofNat_toNat, BitVec.setWidth_eq]
  · rw [h1, ← htens, BitVec.ofNat_toNat, BitVec.setWidth_eq]
  · rw [h2, ← hunits, BitVec.ofNat_toNat, BitVec.setWidth_eq]
  · exact exec_ldB_readByte_outside h (by omega)

theorem exec_ldB_i {x : Reg} {s t : State} (h : exec (.ldB x) s = .next t) : t.i = s.i := by
  obtain ⟨-, -, rfl⟩ := exec_eq_next.1 h
  rfl

/-- A load after a store reads back the registers that were stored and keeps the others. -/
theorem loadedRegs_of_stored {x : Reg} {s t : State} (hv : t.v = s.v)
    (h : ∀ k : Reg, k ≤ x → t.readByte (t.i.toNat + k.val) = s.reg k) : loadedRegs t x = s.v := by
  refine Vector.ext fun k hk => ?_
  refine (getElem_loadedRegs t x ⟨k, hk⟩).trans ?_
  split
  case isTrue hle => exact h ⟨k, hk⟩ hle
  case isFalse => rw [State.reg, hv]; rfl

/-! ### The fetch after a store -/

theorem fetchWord_of_readByte {t : State} {f : Nat → Byte} {a : Addr} (ha : a.toNat + 1 ≤ 0xFFF)
    (h : ∀ b, t.readByte b = f b) : fetchWord { t with pc := a } = some (f a.toNat ++ f (a.toNat + 1)) := by
  rw [← h, ← h]
  exact fetchWord_of_le ha

/-! ### The statements -/

/-- Settles O21: each writes its result and then `flagByte` of its comparison, both numbers of the operands as they were. -/
theorem addAndSubtractWriteResultThenFlag : Obligations.AddAndSubtractWriteResultThenFlag := by
  intro x y s hpc a b
  refine ⟨exec_eq_next.2 ⟨rfl, hpc, ?add⟩, exec_eq_next.2 ⟨rfl, hpc, ?sub⟩, exec_eq_next.2 ⟨rfl, hpc, ?subn⟩⟩
  case add => simp only [effect, byte_add_eq_ofNat_mod, carryFlag, flagByte_decide]; rfl
  case sub => simp only [effect, byte_sub_eq_ofNat_mod, greaterFlag, flagByte_decide]; rfl
  case subn => simp only [effect, byte_sub_eq_ofNat_mod, greaterFlag, flagByte_decide]; rfl

/-- Settles O22: the parameter and Y enter the check only; the bit shifted out is the remainder or the quotient by the weight left. -/
theorem shiftsWriteFlagThenResult : Obligations.ShiftsWriteFlagThenResult := by
  refine fun x y s => ⟨fun hfault hy => ?_, fun hok hpc => ?_⟩
  · have hrefused : shiftRefused y s = true := by simp [shiftRefused, hfault, Fin.ext_iff, hy]
    exact ⟨exec_eq_fault.2 (.inl (if_pos hrefused)), exec_eq_fault.2 (.inl (if_pos hrefused))⟩
  · obtain ⟨hshr, hshl⟩ := ownCheck_shift x hok
    refine ⟨exec_eq_next.2 ⟨hshr, hpc, ?_⟩, exec_eq_next.2 ⟨hshl, hpc, ?_⟩⟩
    · simp only [effect, byte_shiftRight_one_eq_ofNat, lowBitFlag_eq_ofNat]; rfl
    · simp only [effect, byte_shiftLeft_one_eq_ofNat, highBitFlag_eq_ofNat]; rfl

/-- Settles O23: `RND` has no check but the room for its advance, and a raise leaves the count of draws. -/
theorem rndMasksOneFreshByte : Obligations.RndMasksOneFreshByte := by
  refine fun x nn s => ⟨fun hpc => exec_eq_next.2 ⟨rfl, hpc, rfl⟩, fun hpc => ?_⟩
  exact stateAfter_of_eq_fault (exec_at_end hpc rfl (by simp))

/-- Settles O26: the check is that the sum of the two numbers is an address, and then the sum of the words is that number. -/
theorem addIndexRaisesPastTheEnd : Obligations.AddIndexRaisesPastTheEnd := by
  refine fun x s => ⟨fun hout => ?_, fun hin hpc => ?_⟩
  · exact exec_eq_fault.2 (.inl (if_neg (by omega)))
  · refine exec_eq_next.2 ⟨if_pos hin, hpc, ?_⟩
    rw [effect, index_add_eq_ofNat]; rfl

/-- Settles O41: the mode is the one thing written, where the later advance will have room. -/
theorem keyWaitIsEntered : Obligations.KeyWaitIsEntered :=
  fun _ _ => ⟨fun hpc => exec_eq_next.2 ⟨rfl, hpc, rfl⟩, fun hpc => exec_at_end hpc rfl (by simp)⟩

/-- Settles O40: the three cases of the statement are the three branches of `soundEdges`. -/
theorem soundTimerIsSetWithItsEdge : Obligations.SoundTimerIsSetWithItsEdge := by
  intro x s es hpc hes
  have hedges : soundEdges s.st (s.reg x) = es := by
    obtain ⟨hold, hnew, rfl⟩ | ⟨hold, hnew, rfl⟩ | ⟨hsame, rfl⟩ := hes
    · simp [soundEdges, hold, hnew]
    · simp [soundEdges, hold, hnew]
    · simp [soundEdges, hsame]
  refine exec_eq_next.2 ⟨rfl, hpc, ?_⟩
  rw [effect, State.setSt, hedges]; rfl

/-- Settles O28: `LD [I],Vx` is the checked store of the registers from I upward. -/
theorem storeRegistersWritesTheRange : Obligations.StoreRegistersWritesTheRange := by
  refine fun x s => ⟨fun hout => storeFromI_of_low_or_high hout, fun hlow hhigh hpc => ?_⟩
  have hnext := storeFromI_of_inside (regsUpTo s x) hlow hhigh hpc
  exact ⟨_, hnext, rfl, fun k => exec_storeRegs_readByte hnext, fun a => exec_storeRegs_readByte_outside hnext⟩

/-- Settles O29: the new registers are `loadedRegs`, entry by entry. -/
theorem loadRegistersReadsTheRange : Obligations.LoadRegistersReadsTheRange := by
  refine fun x s => ⟨fun hout => ?_, fun hin hpc => ?_⟩
  · have hfail : ¬loadRangeOk s x.val = true := by rw [loadRangeOk_iff]; omega
    exact exec_eq_fault.2 (.inl (if_neg hfail))
  · exact ⟨_, exec_loadRegs_of_le hin hpc, rfl, fun k => getElem_loadedRegs s x k⟩

/-- Settles O30: the store leaves V and I, so the load reads what was stored. -/
theorem storeThenLoadRestoresRegisters : Obligations.StoreThenLoadRestoresRegisters := by
  intro x s hlow hhigh hpc
  have hstore := storeFromI_of_inside (regsUpTo s x) hlow hhigh (by omega : s.pc.toNat + 2 ≤ 0xFFF)
  refine ⟨_, _, hstore, exec_loadRegs_of_le hhigh ?_, ?_, rfl, rfl⟩
  · rw [toNat_ofNat_addr (by omega)]; omega
  · exact loadedRegs_of_stored rfl fun k => exec_storeRegs_readByte (s := s) hstore

/-- Settles O31: the three digits as numbers, of a byte below 1000. -/
theorem decimalDigitsRecombine : Obligations.DecimalDigitsRecombine := by
  intro x s t h
  obtain ⟨hhundreds, htens, hunits⟩ := exec_ldB_readByte h
  have := (s.reg x).isLt
  rw [exec_ldB_i h]
  refine ⟨by omega, fun k hk => ?_⟩
  obtain rfl | rfl | rfl : k = 0 ∨ k = 1 ∨ k = 2 := by omega
  · rw [Nat.add_zero]; omega
  · omega
  · omega

/-- Settles O33: the fetch reads memory where it is, the stored bytes being given one by one. -/
theorem storesAreSeenByTheNextFetch : Obligations.StoresAreSeenByTheNextFetch := by
  refine fun x s t a ha => ⟨fun h => ?_, fun h => ?_⟩
  · have hfetch := fetchWord_of_readByte ha (exec_storeRegs_readByte_eq h)
    exact hfetch
  · have hfetch := fetchWord_of_readByte ha (exec_ldB_readByte_eq h)
    exact hfetch

end Sys2Proof.Machine
end

section
/-! PROOFS. The host operations other than `Step`: what memory holds after `LoadProgram` and `Reset` (spec/70_reset_and_hazards.md R200 to R205), the keys
(60_exceptions.md R180), and the timers run down by ticks (R175). -/

namespace Sys2Proof.Machine

/-! ### A program over blank memory -/

theorem Memory.blank_glyph {g : Glyphs} {a : Nat} (h : a < 80) : Memory.blank g a = g[a] := dif_pos h

theorem Memory.blank_above {g : Glyphs} {a : Nat} (h : 80 ≤ a) : Memory.blank g a = 0#8 := dif_neg (by omega)

/-- The byte of the program region at `a`: the program's, and behind it what an unlisted address reads as. -/
def programByte (g : Glyphs) (bs : List Byte) (a : Nat) : Byte := (bs[a - progBase]?).getD (Memory.blank g a)

theorem programByte_inside {g : Glyphs} {bs : List Byte} {k : Nat} (h : k < bs.length) : programByte g bs (0x200 + k) = bs[k] := by
  rw [programByte, show 0x200 + k - progBase = k from Nat.add_sub_cancel_left .., List.getElem?_eq_getElem h, Option.getD_some]

theorem programByte_behind {g : Glyphs} {bs : List Byte} {a : Nat} (h : 0x200 + bs.length ≤ a) : programByte g bs a = 0#8 := by
  rw [programByte, List.getElem?_eq_none (by simp only [progBase]; omega), Option.getD_none, Memory.blank_above (by omega)]

/-! ### LoadProgram -/

/-- The state `LoadProgram` leaves. -/
def loaded (bs : List Byte) (s : State) : State :=
  (s.setMem (Memory.lowRegion s.mem ++ Memory.ofBytes s.config.glyphs progBase bs)).setImg bs

theorem operate_loadProgram {bs : List Byte} (s : State) (h : bs.length ≤ maxProg) :
    operate (.loadProgram bs) s = .next (loaded bs s) := if_pos h

theorem operate_loadProgram_too_large {bs : List Byte} (s : State) (h : maxProg < bs.length) :
    operate (.loadProgram bs) s = .refused .programTooLarge := if_neg (by omega)

theorem loaded_readByte (bs : List Byte) (s : State) (a : Nat) : (loaded bs s).readByte a =
    if a < 0x050 then Memory.blank s.config.glyphs a
    else if a < progBase then s.readByte a
    else programByte s.config.glyphs bs a :=
  Memory.read_loaded _ _ _ _

theorem loaded_readByte_glyph {bs : List Byte} {s : State} {a : Nat} (h : a < 80) :
    (loaded bs s).readByte a = s.config.glyphs[a] := by
  rw [loaded_readByte, if_pos h, Memory.blank_glyph h]

theorem loaded_readByte_low {bs : List Byte} {s : State} {a : Nat} (hlow : 0x050 ≤ a) (h : a < 0x200) :
    (loaded bs s).readByte a = s.readByte a := by
  rw [loaded_readByte, if_neg (by omega), if_pos h]

theorem loaded_readByte_high {bs : List Byte} {s : State} {a : Nat} (h : 0x200 ≤ a) :
    (loaded bs s).readByte a = programByte s.config.glyphs bs a := by
  rw [loaded_readByte, if_neg (by omega), if_neg (by simp only [progBase]; omega)]

/-! ### Reset -/

theorem operate_reset (s : State) : operate .reset s = .next (hostReset s) := rfl

theorem hostReset_readByte_low {s : State} {a : Nat} (h : a < 0x200) :
    (hostReset s).readByte a = Memory.blank s.config.glyphs a :=
  (Memory.read_ofBytes _ _ _ _).trans (if_neg (by simp only [progBase]; omega))

theorem hostReset_readByte_high {s : State} {a : Nat} (himg : s.img.length ≤ maxProg) (h : 0x200 ≤ a) :
    (hostReset s).readByte a = programByte s.config.glyphs s.img a := by
  have hread : (hostReset s).readByte a = programByte s.config.glyphs (s.img.take maxProg) a :=
    (Memory.read_ofBytes _ _ _ _).trans (if_pos h)
  rw [hread, List.take_of_length_le himg]

/-- `Reset` reads only IMG, ST and what it keeps, and leaves ST zero. -/
theorem hostReset_hostReset (s : State) : hostReset (hostReset s) = hostReset s := by
  have hsilent : (hostReset s).events ++ soundEdges (hostReset s).st 0#8 = (hostReset s).events := by
    rw [show (hostReset s).st = 0#8 from rfl, soundEdges_self, List.append_nil]
  rw [hostReset, hsilent]; rfl

theorem hostReset_loaded {bs : List Byte} (h : bs.length ≤ maxProg) :
    hostReset (loaded bs State.reset) = loaded bs State.reset := by
  simp only [hostReset, loaded, State.setImg, State.setMem, List.take_of_length_le h]; rfl

theorem soundEdges_to_zero (b : Byte) : soundEdges b 0#8 = if b = 0#8 then [] else [.soundOff] := by
  simp [soundEdges]

/-! ### Ticks -/

theorem core_run_succ {n : Nat} {s u : State} (h : step s = .next u) : Sys2Proof.core.run (n + 1) s = Sys2Proof.core.run n u := by
  have hcore : Sys2Proof.core.step s = .next u := h
  simp only [Host.Core.run, hcore]

theorem step_tick {s : State} {rest : List HostOp} :
    step { s with schedule := .tick :: rest } = .next { hostTick s with schedule := rest } := by
  rw [step_of_cons (rest := rest) rfl]; rfl

/-- One tick and n more take a timer down by n + 1. -/
theorem ofNat_decrement_sub (b : Byte) (n : Nat) :
    BitVec.ofNat 8 ((BitVec.ofNat 8 (b.toNat - 1)).toNat - n) = BitVec.ofNat 8 (b.toNat - (n + 1)) := by
  have := b.isLt
  rw [BitVec.toNat_ofNat]; congr 1; omega

/-- The sound ends at the first tick or at one of the n after it, not twice. -/
theorem soundOff_once (b : Byte) (n : Nat) :
    (if b = 1#8 then [Event.soundOff] else []) ++
      (if BitVec.ofNat 8 (b.toNat - 1) ≠ 0#8 ∧ (BitVec.ofNat 8 (b.toNat - 1)).toNat ≤ n then [Event.soundOff] else []) =
    if b ≠ 0#8 ∧ b.toNat ≤ n + 1 then [Event.soundOff] else [] := by
  have := b.isLt
  simp only [ne_eq, ← BitVec.toNat_inj, BitVec.toNat_ofNat]
  by_cases h1 : b.toNat = 1
  · simp [h1]
  · have hrest : ¬(b.toNat - 1) % 2 ^ 8 = 0 % 2 ^ 8 ∧ (b.toNat - 1) % 2 ^ 8 ≤ n ↔ ¬b.toNat = 0 % 2 ^ 8 ∧ b.toNat ≤ n + 1 := by
      omega
    simp only [hrest]
    simp [h1]

/-- The state n ticks leave: both timers run down, the sound ended if they sufficed, and no operation scheduled any more. -/
def runDown (n : Nat) (s : State) : State :=
  { s with dt := BitVec.ofNat 8 (s.dt.toNat - n), st := BitVec.ofNat 8 (s.st.toNat - n), schedule := [],
           events := s.events ++ (if s.st ≠ 0#8 ∧ s.st.toNat ≤ n then [.soundOff] else []) }

theorem runDown_zero (s : State) : runDown 0 s = { s with schedule := [] } := by
  have hsilent : ¬(s.st ≠ 0#8 ∧ s.st.toNat ≤ 0) := by bv_omega
  simp only [runDown, Nat.sub_zero, BitVec.ofNat_toNat, BitVec.setWidth_eq, if_neg hsilent, List.append_nil]

theorem runDown_hostTick (n : Nat) (s : State) : runDown n (hostTick s) = runDown (n + 1) s := by
  rw [hostTick_eq]
  simp only [runDown, ofNat_decrement_sub, List.append_assoc, soundOff_once]

/-! ### The statements -/

/-- Settles O44: `SetKeys` is the replacement of the keypad. -/
theorem setKeysReplacesTheKeypad : Obligations.SetKeysReplacesTheKeypad := fun _ _ => rfl

/-- Settles O45: memory after `LoadProgram`, region by region. -/
theorem loadProgramFillsTheProgramRegion : Obligations.LoadProgramFillsTheProgramRegion := by
  refine fun bs s => ⟨fun hlarge => operate_loadProgram_too_large s hlarge, fun hlen => ?_⟩
  refine ⟨loaded bs s, operate_loadProgram s hlen, rfl, fun a => loaded_readByte_glyph, fun a => loaded_readByte_low,
    fun k hk => ?_, fun a ha => ?_⟩
  · rw [loaded_readByte_high (by omega), programByte_inside hk]
  · rw [loaded_readByte_high (by omega), programByte_behind ha]

/-- Settles O46: the fields of `hostReset` one by one, and memory region by region. -/
theorem resetRestoresTheInitialState : Obligations.ResetRestoresTheInitialState := by
  intro s himg
  refine ⟨hostReset s, operate_reset s, ?reg, rfl, rfl, rfl, ?stack, rfl, rfl, rfl, ?keys, ?fb, fun a ha => ?glyphs,
    fun a hlow ha => ?low, fun k hk => ?program, fun a ha => ?rest, rfl, rfl, rfl, rfl, ?events⟩
  case reg => simp [hostReset, State.reset, State.reg]
  case stack => simp [hostReset, State.reset]
  case keys => simp [hostReset, State.reset]
  case fb => exact FrameBuffer.pixel_clear
  case glyphs => rw [hostReset_readByte_low (by omega), Memory.blank_glyph ha]
  case low => rw [hostReset_readByte_low ha, Memory.blank_above hlow]
  case program => rw [hostReset_readByte_high himg (by omega), programByte_inside hk]
  case rest => rw [hostReset_readByte_high himg (by omega), programByte_behind ha]
  case events => rw [← soundEdges_to_zero]; rfl

/-- Settles O47: the first `Reset` leaves ST zero and IMG in place. -/
theorem resetIsIdempotent : Obligations.ResetIsIdempotent := by
  intro s t h
  rw [operate_reset] at h
  cases h
  rw [operate_reset, hostReset_hostReset]

/-- Settles O48: both states carry the registers of the reset state. -/
theorem registersAreZeroAfterReset : Obligations.RegistersAreZeroAfterReset := by
  have hzero (x : Reg) : State.reset.reg x = 0#8 := by simp [State.reset, State.reg]
  refine ⟨hzero, fun s t x h => ?_⟩
  rw [operate_reset] at h
  cases h
  exact hzero x

/-- Settles O49: at power-on `LoadProgram` finds blank memory, and a `Reset` builds the same memory from IMG. -/
theorem launchStateHoldsTheProgram : Obligations.LaunchStateHoldsTheProgram := by
  intro rom hlen
  refine ⟨loaded rom State.reset, operate_loadProgram _ hlen, ?_, rfl, rfl, rfl, fun a => loaded_readByte_glyph, fun a hlow ha => ?_,
    fun k hk => ?_, fun a ha => ?_⟩
  · rw [operate_reset, hostReset_loaded hlen]
  · exact (loaded_readByte_low hlow ha).trans (Memory.blank_above hlow)
  · rw [loaded_readByte_high (by omega), programByte_inside hk]
  · rw [loaded_readByte_high (by omega), programByte_behind ha]

/-- Settles O43, by induction on the ticks: the first takes each timer down by one, and the rest act on what it leaves. -/
theorem timersRunDownTickByTick : Obligations.TimersRunDownTickByTick := by
  intro n
  induction n with
  | zero => exact fun s => ⟨_, rfl, (runDown_zero s).symm⟩
  | succ n ih =>
    intro s
    obtain ⟨t, hrun, ht⟩ := ih (hostTick s)
    exact ⟨t, (core_run_succ step_tick).trans hrun, ht.trans (runDown_hostTick n s)⟩

end Sys2Proof.Machine
end

section
/-! PROOFS. The display instructions of spec/44_display.md: CLS (R140), the errors and the drawing of DRW under every edge policy (R142 to R145), and the
second draw of the same sprite (R146). -/

namespace Sys2Proof.Machine

/-! ### The pixels of a sprite -/

theorem place_eq_some_iff {e : DrawEdge} {cx cy : Nat} {px : Fin 64} {py : Fin 32} :
    place e cx cy = some (px, py) ↔ LandsOn e cx cy px.val py.val := by
  cases e with
  | wrap => simp [place, LandsOn, Fin.ext_iff]
  | clip | error =>
    simp only [place, LandsOn]
    split
    case isTrue => simp [Fin.ext_iff]
    case isFalse hout =>
      simp only [reduceCtorEq, false_iff]
      rintro ⟨rfl, rfl⟩
      exact hout ⟨px.isLt, py.isLt⟩

/-- The pixels that the set bits of the sprite of `DRW Vx,Vy,N` land on. -/
def drawnPixels (x y : Reg) (n : Fin 16) (s : State) : List (Fin 64 × Fin 32) :=
  spritePixels s.config.drawEdge (s.reg x).toNat (s.reg y).toNat (bytesFromI s n.val)

theorem drawResult_eq (x y : Reg) (n : Fin 16) (s : State) : drawResult x y n s = drawPixels s.fb (drawnPixels x y n s) := rfl

theorem mem_drawnPixels {x y : Reg} {n : Fin 16} {s : State} {px : Fin 64} {py : Fin 32} :
    (px, py) ∈ drawnPixels x y n s ↔ Covers s x y n px py := by
  simp only [drawnPixels, mem_spritePixels, Covers, place_eq_some_iff, getElem_bytesFromI, length_bytesFromI, exists_prop]

theorem nodup_drawnPixels (x y : Reg) (n : Fin 16) (s : State) : (drawnPixels x y n s).Nodup :=
  nodup_spritePixels _ _ _ _ (by rw [length_bytesFromI]; omega)

/-! ### What a draw leaves -/

theorem effect_drw_pixel_covered {x y : Reg} {n : Fin 16} {s : State} {px : Fin 64} {py : Fin 32} (h : Covers s x y n px py) :
    (effect (.drw x y n) s).fb.pixel px py = !s.fb.pixel px py := by
  refine (pixel_drawPixels (nodup_drawnPixels x y n s) px py).trans ?_
  rw [decide_eq_true (mem_drawnPixels.2 h), Bool.xor_true]

theorem effect_drw_pixel_uncovered {x y : Reg} {n : Fin 16} {s : State} {px : Fin 64} {py : Fin 32} (h : ¬Covers s x y n px py) :
    (effect (.drw x y n) s).fb.pixel px py = s.fb.pixel px py := by
  refine (pixel_drawPixels (nodup_drawnPixels x y n s) px py).trans ?_
  rw [decide_eq_false (fun hmem => h (mem_drawnPixels.1 hmem)), Bool.xor_false]

theorem effect_drw_vf (x y : Reg) (n : Fin 16) (s : State) :
    (effect (.drw x y n) s).reg vf = flagByte (drawResult x y n s).2 :=
  State.reg_setReg_same _ vf _

/-- The collision of a draw (44_display.md R142). -/
theorem drawResult_hit {x y : Reg} {n : Fin 16} {s : State} :
    (drawResult x y n s).2 = true ↔ ∃ px py, Covers s x y n px py ∧ s.fb.pixel px py = true := by
  rw [drawResult_eq, hit_drawPixels (nodup_drawnPixels x y n s), List.any_eq_true]
  simp only [Prod.exists, mem_drawnPixels]

theorem effect_drw_vf_eq_one {x y : Reg} {n : Fin 16} {s : State} :
    (effect (.drw x y n) s).reg vf = 1#8 ↔ ∃ px py, Covers s x y n px py ∧ s.fb.pixel px py = true := by
  rw [effect_drw_vf, ← drawResult_hit]
  cases (drawResult x y n s).2 <;> decide

theorem effect_drw_vf_eq_zero {x y : Reg} {n : Fin 16} {s : State} :
    (effect (.drw x y n) s).reg vf = 0#8 ↔ ∀ px py, Covers s x y n px py → s.fb.pixel px py = false := by
  have hmiss : (drawResult x y n s).2 = false ↔ ∀ px py, Covers s x y n px py → s.fb.pixel px py = false := by
    rw [← Bool.not_eq_true, drawResult_hit]
    simp
  rw [effect_drw_vf, ← hmiss]
  cases (drawResult x y n s).2 <;> decide

/-! ### The same sprite drawn from another state -/

/-- `u` has all that `DRW Vx,Vy,N` reads in `s` but the frame buffer. -/
structure SameSprite (x y : Reg) (s u : State) : Prop where
  regX : u.reg x = s.reg x
  regY : u.reg y = s.reg y
  index : u.i = s.i
  config : u.config = s.config
  bytes : ∀ a, u.readByte a = s.readByte a

theorem SameSprite.covers_iff {x y : Reg} {n : Fin 16} {s u : State} {px : Fin 64} {py : Fin 32} (h : SameSprite x y s u) :
    Covers u x y n px py ↔ Covers s x y n px py := by
  simp only [Covers, h.regX, h.regY, h.index, h.config, h.bytes]

theorem SameSprite.ownCheck_eq {x y : Reg} {s u : State} (h : SameSprite x y s u) (n : Fin 16) :
    ownCheck (.drw x y n) u = ownCheck (.drw x y n) s := by
  have hread : spriteReadOk u n = spriteReadOk s n := by simp only [spriteReadOk, h.index]
  have hbox : spriteBoxOk u x y n = spriteBoxOk s x y n := by simp only [spriteBoxOk, h.regX, h.regY]
  rw [ownCheck, ownCheck, hread, hbox, h.config]

/-- Two flips of the same pixels undo each other. -/
theorem SameSprite.fb_restored {x y : Reg} {n : Fin 16} {s u : State} (h : SameSprite x y s u)
    (hfb : u.fb = (effect (.drw x y n) s).fb) : (effect (.drw x y n) u).fb = s.fb := by
  refine FrameBuffer.ext_pixel fun px py => ?_
  by_cases hc : Covers s x y n px py
  · rw [effect_drw_pixel_covered (h.covers_iff.2 hc), hfb, effect_drw_pixel_covered hc, Bool.not_not]
  · rw [effect_drw_pixel_uncovered (fun hu => hc (h.covers_iff.1 hu)), hfb, effect_drw_pixel_uncovered hc]

/-! ### The statements -/

/-- Settles O34: the new buffer is the clear one. -/
theorem clsClearsEveryPixel : Obligations.ClsClearsEveryPixel :=
  fun _ hpc => ⟨_, exec_eq_next.2 ⟨rfl, hpc, rfl⟩, rfl, FrameBuffer.pixel_clear⟩

/-- Settles O36: the first two errors are `DRW`'s own check in its order, the third the room for its advance. -/
theorem drawRaisesInOrder : Obligations.DrawRaisesInOrder := by
  refine fun x y n s => ⟨fun hn hout => ?read, fun hn hin he hbox => ?box, fun hok hpc => ?advance⟩
  case read =>
    have hread : ¬spriteReadOk s n = true := by rw [spriteReadOk_iff]; omega
    exact exec_eq_fault.2 (.inl (if_pos (by simpa using hread)))
  case box =>
    have hread : spriteReadOk s n = true := spriteReadOk_iff.2 (by omega)
    have hfail : ¬spriteBoxOk s x y n = true := by rw [spriteBoxOk_iff]; omega
    exact exec_eq_fault.2 (.inl (by simp [ownCheck, hread, he, hfail]))
  case advance => exact exec_at_end hpc (ownCheck_drw hok) (by simp)

/-- Settles O35: the draw flips each of the sprite's pixels once, since no two of its bits land on one place. -/
theorem drawXorsTheSprite : Obligations.DrawXorsTheSprite := by
  intro x y n s hread hbox hpc
  have hown : ownCheck (.drw x y n) s = none := ownCheck_drw fun hn => ⟨hread hn, fun he => hbox he hn⟩
  refine ⟨_, exec_eq_next.2 ⟨hown, hpc, rfl⟩, ?_, fun px py => effect_drw_pixel_covered, fun px py => effect_drw_pixel_uncovered,
    effect_drw_vf_eq_one.2, effect_drw_vf_eq_zero.2⟩
  rw [State.setPc_reg, effect_drw_vf]; rfl

/-- Settles O37: the second draw flips the same pixels, and it hits one exactly when the first left one set. -/
theorem drawingTwiceRestoresTheBuffer : Obligations.DrawingTwiceRestoresTheBuffer := by
  intro x y n s t u ht hfb hx hy hi hconfig hbytes hpc
  obtain ⟨hown, -, rfl⟩ := exec_eq_next.1 ht
  have hsame : SameSprite x y s u := ⟨hx, hy, hi, hconfig, hbytes⟩
  have hhit : (effect (.drw x y n) u).reg vf = 1#8 ↔
      ∃ px py, Covers s x y n px py ∧ (effect (.drw x y n) s).fb.pixel px py = true := by
    rw [effect_drw_vf_eq_one, hfb]
    simp only [hsame.covers_iff]; rfl
  refine ⟨_, exec_eq_next.2 ⟨(hsame.ownCheck_eq n).trans hown, hpc, rfl⟩, hsame.fb_restored hfb, hhit, fun hclear => ⟨?_, ?_⟩⟩
  · exact effect_drw_vf_eq_zero.2 fun px py _ => hclear px py
  · refine hhit.trans (exists_congr fun px => exists_congr fun py => ⟨And.left, fun hc => ⟨hc, ?_⟩⟩)
    rw [effect_drw_pixel_covered hc, hclear, Bool.not_false]

end Sys2Proof.Machine
end
